-- ==== Sys2Proof/Word.lean ====
section
/-! DEFINITION. The word types of the block (spec/00_scope.md R4, R6): a byte on either interface, and the
narrower fields that are slices of a byte. All quantities are unsigned (R6). -/

namespace Sys2Proof

/-- `BYTE_W` = 8: one byte of either stream (R4). -/
abbrev Byte := BitVec 8

/-- A 7-bit field value, 0 to 127 (30_encoding.md R63). -/
abbrev Data7 := BitVec 7

/-- The wire channel, `status[3:0]`, 0 to 15 (10_state.md R11). -/
abbrev WireChannel := BitVec 4

/-- The external channel number, 1 to 16, in 5 bits (10_state.md R19; 30_encoding.md R64). -/
abbrev Channel := BitVec 5

/-- A type nibble, `status[7:4]` (10_state.md R11). -/
abbrev Nibble := BitVec 4

end Sys2Proof
end

