-- ==== Sys2Proof/Config.lean ====
section
/-! DEFINITION. The OPEN parameters of the block (spec/00_scope.md R4). "A model takes the ones marked OPEN as
arguments": they are plain data, a field of State that no step writes (log 7), so that every statement about
every state holds for every value of them. -/

namespace Sys2Proof

/-- The parameters of R4 that the spec leaves OPEN. `none` is the spec's default, unbounded. -/
structure Params where
  /-- `SYSEX_CAP`: the most SysEx data bytes the RX framer holds (R4; 44_sysex.md R164). -/
  sysexCap : Option Nat
  /-- `COUNT_W`: the width of `tx_count` (R4; 10_state.md R22; 40_message_model.md R95). -/
  countWidth : Option Nat
deriving DecidableEq, Repr

/-- The defaults of R4: both unbounded. -/
def Params.unbounded : Params := { sysexCap := none, countWidth := none }

end Sys2Proof
end

