-- ==== Sys2Proof/Syntax.lean ====
section
/-! DEFINITION. The instructions of the block: one frame is one instruction, its opcode is the first byte
(spec/30_encoding.md; opcode_table.json, 13 rows). Operands are the frame's RAW bytes, every one of their 256
values allowed: a frame whose 7-bit position holds 128 or more is an instruction as well, whose effect is the
outcome `InvalidField` (30_encoding.md R63, R70). A field that the opcode fixes in part has the width of its
free bits. -/

namespace Sys2Proof

/-- One frame of the incoming stream, one constructor per row of opcode_table.json. -/
inductive Instr where
  /-- NOTE_OFF `1000cccc 0nnnnnnn 0vvvvvvv` (R130). -/
  | noteOff (c : WireChannel) (note velocity : Byte)
  /-- NOTE_ON `1001cccc 0nnnnnnn 0vvvvvvv` (R131). -/
  | noteOn (c : WireChannel) (note velocity : Byte)
  /-- POLY_AT `1010cccc 0nnnnnnn 0ppppppp` (R133). -/
  | polyAt (c : WireChannel) (note pressure : Byte)
  /-- CTRL_CHANGE `1011cccc 0kkkkkkk 0vvvvvvv` (R134). -/
  | ctrlChange (c : WireChannel) (control value : Byte)
  /-- PROG_CHANGE `1100cccc 0wwwwwww`, `w = program_number - 1` (R150). -/
  | progChange (c : WireChannel) (w : Byte)
  /-- CHAN_AT `1101cccc 0ppppppp` (R151). -/
  | chanAt (c : WireChannel) (pressure : Byte)
  /-- PITCH_BEND `1110cccc 0lllllll 0mmmmmmm` (R135). -/
  | pitchBend (c : WireChannel) (lsbyte msbyte : Byte)
  /-- SYSEX `11110000 0iiiiiii dddddddd ... 11110111` (R160). -/
  | sysex (id : Byte) (data : List Byte)
  /-- UNREC_DATA `0xxxxxxx xxxxxxxx xxxxxxxx` (R170): `x` is bits 6:0 of the first byte. -/
  | unrecData (x : Data7) (ignored1 ignored2 : Byte)
  /-- UNREC_F1 `11110001` (R171). -/
  | unrecF1
  /-- UNREC_F2_F3 `1111001x` (R171). -/
  | unrecF2F3 (x : BitVec 1)
  /-- UNREC_F4_F7 `111101xx` (R171). -/
  | unrecF4F7 (x : BitVec 2)
  /-- UNREC_F8_FF `11111xxx` (R171). -/
  | unrecF8FF (x : BitVec 3)
deriving DecidableEq, Repr

end Sys2Proof
end

