-- ==== Sys2Proof/WellFormed.lean ====
section
/-! DEFINITION. Which terms of `Instr` stand for a frame of the wire (`Instr.wf`), and which of those are a LEGAL
frame, that is one whose construction succeeds (`Instr.legal`; spec/30_encoding.md R63, R67, R69, R70). The
decoder yields every well-formed instruction, the illegal ones too: an illegal frame runs and ends in an error. -/

namespace Sys2Proof

/-- The terminator 0xF7 (R67). -/
def terminator : Byte := 0xF7

/-- A SysEx body as the wire can carry it: 0xF7 "never appears inside `data`" (R67). -/
def bodyOk (data : List Byte) : Bool := data.all (· != terminator)

/-- A byte legal in a 7-bit position: bit 7 is 0 (R63). -/
def sevenBit (b : Byte) : Bool := decide (b ≤ 127)

/-- The instruction is one the frame formats can hold: only SysEx data can break a format (R60, R67). -/
def Instr.wf : Instr → Bool
  | .noteOff _ _ _ => true
  | .noteOn _ _ _ => true
  | .polyAt _ _ _ => true
  | .ctrlChange _ _ _ => true
  | .progChange _ _ => true
  | .chanAt _ _ => true
  | .pitchBend _ _ _ => true
  | .sysex _ data => bodyOk data
  | .unrecData _ _ _ => true
  | .unrecF1 => true
  | .unrecF2F3 _ => true
  | .unrecF4F7 _ => true
  | .unrecF8FF _ => true

/-- The frame is a legal encoding of a message (R63, R67, R69, R70). -/
def Instr.legal : Instr → Bool
  | .noteOff _ n v => sevenBit n && sevenBit v
  | .noteOn _ n v => sevenBit n && sevenBit v
  | .polyAt _ n p => sevenBit n && sevenBit p
  | .ctrlChange _ k v => sevenBit k && sevenBit v
  | .progChange _ w => sevenBit w
  | .chanAt _ p => sevenBit p
  | .pitchBend _ l m => sevenBit l && sevenBit m
  | .sysex id data => sevenBit id && !data.isEmpty && bodyOk data
  | .unrecData _ _ _ => false
  | .unrecF1 => false
  | .unrecF2F3 _ => false
  | .unrecF4F7 _ => false
  | .unrecF8FF _ => false

end Sys2Proof
end

