-- ==== Sys2Proof/Decode.lean ====
section
/-! DEFINITION. From bytes to instructions and back. The bit fields of a byte (spec/00_scope.md R6, 41_rx_framer.md
R103); the opcode table (30_encoding.md R76); the decoder, total on any bytes (R68, R69); the encoder, written from
the frame formats (R60, R62); and the layout of an opcode-table word, which the host's check uses. -/

namespace Sys2Proof

/-! ### Bit fields -/

/-- `b[7:4]` (R103). -/
def typeNibble (b : Byte) : Nibble := b.extractLsb' 4 4

/-- `b[3:0]` (R103). -/
def wireChannel (b : Byte) : WireChannel := b.extractLsb' 0 4

/-- `b[6:0]` (R63). -/
def low7 (b : Byte) : Data7 := b.extractLsb' 0 7

/-- `zext_8` of a 7-bit value (R66). -/
def widen (d : Data7) : Byte := d.setWidth 8

/-- `{ nibble, wire channel }`, that is `(nibble << 4) | (channel - 1)` (R61, R88). -/
def statusOf (n : Nibble) (c : WireChannel) : Byte := n ++ c

/-- The first byte of a SysEx frame, all eight bits fixed (R60, R61). -/
def sysexStart : Byte := 0xF0

/-! ### The opcode table -/

/-- The opcode of a frame: the row of opcode_table.json its first byte selects. -/
inductive Opcode where
  | noteOff | noteOn | polyAt | ctrlChange | progChange | chanAt | pitchBend | sysex
  | unrecData | unrecF1 | unrecF2F3 | unrecF4F7 | unrecF8FF
deriving DecidableEq, Repr

/-- A row of opcode_table.json: a byte `b` selects it when `b & mask = pattern` (R76). -/
structure Row where
  op : Opcode
  pattern : Byte
  mask : Byte
deriving DecidableEq, Repr

/-- "a byte `b` selects the row when `b & mask = match`" (R76). -/
def Row.selects (r : Row) (b : Byte) : Bool := b &&& r.mask == r.pattern

/-- The 13 rows of opcode_table.json, in its order. -/
def opcodeTable : List Row :=
  [⟨.noteOff, 0x80, 0xF0⟩, ⟨.noteOn, 0x90, 0xF0⟩, ⟨.polyAt, 0xA0, 0xF0⟩, ⟨.ctrlChange, 0xB0, 0xF0⟩,
   ⟨.progChange, 0xC0, 0xF0⟩, ⟨.chanAt, 0xD0, 0xF0⟩, ⟨.pitchBend, 0xE0, 0xF0⟩, ⟨.sysex, 0xF0, 0xFF⟩] ++
  [⟨.unrecData, 0x00, 0x80⟩, ⟨.unrecF1, 0xF1, 0xFF⟩, ⟨.unrecF2F3, 0xF2, 0xFE⟩, ⟨.unrecF4F7, 0xF4, 0xFC⟩,
   ⟨.unrecF8FF, 0xF8, 0xF8⟩]

/-- The opcode of a first byte: the row it selects. The rows cover all 256 values, so the last line is never
reached by falling through (R76; `opcodeOf_selects` in Laws). -/
def opcodeOf (b : Byte) : Opcode :=
  match opcodeTable.find? (·.selects b) with
  | some r => r.op
  | none => .unrecF8FF

/-! ### Frames -/

/-- The length class of a frame, by its first byte alone (R68, R118). -/
inductive FrameClass where
  /-- 0xF1 to 0xFF: the byte alone. -/
  | alone
  /-- 0xC0 to 0xDF: one data byte. -/
  | oneData
  /-- Every other value but 0xF0: two data bytes. -/
  | twoData
  /-- 0xF0: an id byte, then bytes up to the first 0xF7. -/
  | sysex
deriving DecidableEq, Repr

/-- The tests of R68, in its order. -/
def frameClass (st : Byte) : FrameClass :=
  if st = sysexStart then .sysex
  else if typeNibble st = 0xF then .alone
  else if typeNibble st = 0xC ∨ typeNibble st = 0xD then .oneData
  else .twoData

/-- The instruction that the bytes of a complete frame stand for: `d1` is read only where the frame has a first
data byte, `d2` only where it has a second, `data` only for SysEx (R107). -/
def instrOf (st d1 d2 : Byte) (data : List Byte) : Instr :=
  match opcodeOf st with
  | .noteOff => .noteOff (wireChannel st) d1 d2
  | .noteOn => .noteOn (wireChannel st) d1 d2
  | .polyAt => .polyAt (wireChannel st) d1 d2
  | .ctrlChange => .ctrlChange (wireChannel st) d1 d2
  | .progChange => .progChange (wireChannel st) d1
  | .chanAt => .chanAt (wireChannel st) d1
  | .pitchBend => .pitchBend (wireChannel st) d1 d2
  | .sysex => .sysex d1 data
  | .unrecData => .unrecData (low7 st) d1 d2
  | .unrecF1 => .unrecF1
  | .unrecF2F3 => .unrecF2F3 (st.extractLsb' 0 1)
  | .unrecF4F7 => .unrecF4F7 (st.extractLsb' 0 2)
  | .unrecF8FF => .unrecF8FF (st.extractLsb' 0 3)

/-- Split a SysEx body at its first 0xF7: the bytes before it and the bytes after it (R67, R68). -/
def splitBody : List Byte → Option (List Byte × List Byte)
  | [] => none
  | b :: bs =>
    if b = terminator then some ([], bs)
    else match splitBody bs with
      | some (data, rest) => some (b :: data, rest)
      | none => none

/-- Why bytes are not a frame. Every first byte opens a frame (R69), so a rejection only ever says that the frame
is not complete. -/
inductive DecodeError where
  /-- No byte at all. -/
  | noByte
  /-- The first data byte (or the SysEx id) is missing. -/
  | missingData1
  /-- The second data byte is missing. -/
  | missingData2
  /-- A SysEx frame with no 0xF7 after the id byte. -/
  | unterminated
deriving DecidableEq, Repr

/-- What the decoder answers: an instruction and the bytes after its frame, or a rejection by name. -/
inductive Decoded where
  | instr (i : Instr) (rest : List Byte)
  | reject (e : DecodeError)
deriving DecidableEq, Repr

/-- The decoder: the frame at the front of a byte sequence (R68). -/
def decode : List Byte → Decoded
  | [] => .reject .noByte
  | st :: bs =>
    match frameClass st with
    | .alone => .instr (instrOf st 0 0 []) bs
    | .oneData =>
      match bs with
      | d1 :: rest => .instr (instrOf st d1 0 []) rest
      | [] => .reject .missingData1
    | .twoData =>
      match bs with
      | d1 :: d2 :: rest => .instr (instrOf st d1 d2 []) rest
      | [_] => .reject .missingData2
      | [] => .reject .missingData1
    | .sysex =>
      match bs with
      | [] => .reject .missingData1
      | id :: body =>
        match splitBody body with
        | some (data, rest) => .instr (instrOf st id 0 data) rest
        | none => .reject .unterminated

/-- The row of the opcode table an instruction belongs to. -/
def Instr.opcode : Instr → Opcode
  | .noteOff _ _ _ => .noteOff
  | .noteOn _ _ _ => .noteOn
  | .polyAt _ _ _ => .polyAt
  | .ctrlChange _ _ _ => .ctrlChange
  | .progChange _ _ => .progChange
  | .chanAt _ _ => .chanAt
  | .pitchBend _ _ _ => .pitchBend
  | .sysex _ _ => .sysex
  | .unrecData _ _ _ => .unrecData
  | .unrecF1 => .unrecF1
  | .unrecF2F3 _ => .unrecF2F3
  | .unrecF4F7 _ => .unrecF4F7
  | .unrecF8FF _ => .unrecF8FF

/-- The frame of an instruction, written from the formats of R60 and the status map of R62 and R69. -/
def encode : Instr → List Byte
  | .noteOff c n v => [statusOf 0x8 c, n, v]
  | .noteOn c n v => [statusOf 0x9 c, n, v]
  | .polyAt c n p => [statusOf 0xA c, n, p]
  | .ctrlChange c k v => [statusOf 0xB c, k, v]
  | .progChange c w => [statusOf 0xC c, w]
  | .chanAt c p => [statusOf 0xD c, p]
  | .pitchBend c l m => [statusOf 0xE c, l, m]
  | .sysex id data => sysexStart :: id :: (data ++ [terminator])
  | .unrecData x b1 b2 => [widen x, b1, b2]
  | .unrecF1 => [0xF1]
  | .unrecF2F3 x => [0b1111001#7 ++ x]
  | .unrecF4F7 x => [0b111101#6 ++ x]
  | .unrecF8FF x => [0b11111#5 ++ x]

/-! ### Opcode-table words -/

/-- The low `n` bytes of `w`, the least significant first: the table numbers bit 0 as the least significant bit of
the first byte. -/
def bytesOf : Nat → Nat → List Byte
  | 0, _ => []
  | n + 1, w => BitVec.ofNat 8 w :: bytesOf n (w / 256)

/-- The frame of a table word: its bytes, operand bytes of zero up to three bytes, and for SysEx the terminator,
a fixed byte of the format and no operand, where no 0xF7 is there yet (log 11). -/
def tableFrame (nbits w : Nat) : List Byte :=
  let given := bytesOf ((nbits + 7) / 8) w
  let padded := given ++ List.replicate (3 - given.length) 0
  match padded with
  | st :: id :: body =>
    if st = sysexStart ∧ bodyOk body then st :: id :: (body ++ [terminator]) else padded
  | _ => padded

/-- The instruction the decoder reads from an opcode-table word. -/
def decodeTableWord (nbits w : Nat) : Option Instr :=
  match decode (tableFrame nbits w) with
  | .instr i _ => some i
  | .reject _ => none

end Sys2Proof
end

