-- ==== Sys2Proof/Machine/Message.lean ====
section
/-! DEFINITION. The message model both units share (spec/40_message_model.md): the eight kinds, what a valid message
is, its status byte and its content, and the decode-time normalisation. -/

namespace Sys2Proof.Machine

/-- The kind tag, 3 bits, type nibble minus 8 (10_state.md R19; 30_encoding.md R62). -/
inductive KindTag where
  | noteOff | noteOn | polyphonicAftertouch | controlChange
  | programChange | channelAftertouch | pitchBend | sysEx
deriving DecidableEq, Repr

/-- The number of a kind tag (10_state.md R19). -/
def KindTag.code : KindTag → BitVec 3
  | .noteOff => 0 | .noteOn => 1 | .polyphonicAftertouch => 2 | .controlChange => 3
  | .programChange => 4 | .channelAftertouch => 5 | .pitchBend => 6 | .sysEx => 7

/-- The kind of a tag number: all eight values are kinds (R172). -/
def KindTag.ofCode (n : BitVec 3) : KindTag :=
  if n = 0 then .noteOff else if n = 1 then .noteOn else if n = 2 then .polyphonicAftertouch
  else if n = 3 then .controlChange else if n = 4 then .programChange else if n = 5 then .channelAftertouch
  else if n = 6 then .pitchBend else .sysEx

/-- A message: a kind with its own fields, and a channel unless the kind is SysEx (R80, R87; 10_state.md R19).
`ch` is the external channel 1 to 16, `program` the external number 1 to 128 (R65). A field that a kind does not
have does not exist. Equality is field for field (R91). -/
inductive Message where
  | noteOff (ch : Channel) (note velocity : Data7)
  | noteOn (ch : Channel) (note velocity : Data7)
  | polyphonicAftertouch (ch : Channel) (note pressure : Data7)
  | controlChange (ch : Channel) (control value : Data7)
  | programChange (ch : Channel) (program : Byte)
  | channelAftertouch (ch : Channel) (pressure : Data7)
  | pitchBend (ch : Channel) (lsbyte msbyte : Data7)
  | sysEx (manufacturerId : Data7) (data : List Byte)
deriving DecidableEq, Repr

/-- The kind of a message. -/
def Message.tag : Message → KindTag
  | .noteOff _ _ _ => .noteOff
  | .noteOn _ _ _ => .noteOn
  | .polyphonicAftertouch _ _ _ => .polyphonicAftertouch
  | .controlChange _ _ _ => .controlChange
  | .programChange _ _ => .programChange
  | .channelAftertouch _ _ => .channelAftertouch
  | .pitchBend _ _ _ => .pitchBend
  | .sysEx _ _ => .sysEx

/-- The channel of a message; SysEx has none (R87). -/
def Message.channel? : Message → Option Channel
  | .noteOff ch _ _ => some ch
  | .noteOn ch _ _ => some ch
  | .polyphonicAftertouch ch _ _ => some ch
  | .controlChange ch _ _ => some ch
  | .programChange ch _ => some ch
  | .channelAftertouch ch _ => some ch
  | .pitchBend ch _ _ => some ch
  | .sysEx _ _ => none

/-- The same message on another channel; SysEx is not channel-scoped (46_tx_serializer.md R184, R187). -/
def Message.withChannel (ch : Channel) : Message → Message
  | .noteOff _ n v => .noteOff ch n v
  | .noteOn _ n v => .noteOn ch n v
  | .polyphonicAftertouch _ n p => .polyphonicAftertouch ch n p
  | .controlChange _ k v => .controlChange ch k v
  | .programChange _ p => .programChange ch p
  | .channelAftertouch _ p => .channelAftertouch ch p
  | .pitchBend _ l m => .pitchBend ch l m
  | .sysEx id data => .sysEx id data

/-- A channel in [1,16] (R87). -/
def channelOk (ch : Channel) : Bool := decide (1 ≤ ch) && decide (ch ≤ 16)

/-- A valid message: channel in [1,16], program number in [1,128], SysEx data of at least one byte and none 0xF7
(R82, R83, R85, R87). The 7-bit fields are in range by their type. -/
def Message.valid : Message → Bool
  | .noteOff ch _ _ => channelOk ch
  | .noteOn ch _ _ => channelOk ch
  | .polyphonicAftertouch ch _ _ => channelOk ch
  | .controlChange ch _ _ => channelOk ch
  | .programChange ch p => channelOk ch && decide (1 ≤ p) && decide (p ≤ 128)
  | .channelAftertouch ch _ => channelOk ch
  | .pitchBend ch _ _ => channelOk ch
  | .sysEx _ data => !data.isEmpty && bodyOk data

/-- `channel = zext_5(status[3:0]) + 1` (41_rx_framer.md R103; 30_encoding.md R64). -/
def channelOf (c : WireChannel) : Channel := c.setWidth 5 + 1

/-- `status[3:0] = channel - 1` (30_encoding.md R64). -/
def wireOf (ch : Channel) : WireChannel := (ch - 1).setWidth 4

/-- `program_number = zext_8(data1) + 1` (30_encoding.md R65). -/
def programOf (w : Byte) : Byte := w + 1

/-- `data1 = program_number - 1` (30_encoding.md R65). -/
def programWire (p : Byte) : Byte := p - 1

/-- The type nibble of a kind (R88; 30_encoding.md R62). SysEx has 0xF, of which only 0xF0 is used. -/
def KindTag.nibble : KindTag → Nibble
  | .noteOff => 0x8 | .noteOn => 0x9 | .polyphonicAftertouch => 0xA | .controlChange => 0xB
  | .programChange => 0xC | .channelAftertouch => 0xD | .pitchBend => 0xE | .sysEx => 0xF

/-- `status_byte(m)` (R88). -/
def Message.statusByte (m : Message) : Byte :=
  match m.channel? with
  | none => sysexStart
  | some ch => statusOf m.tag.nibble (wireOf ch)

/-- The bytes of a message after its status byte (R89). -/
def Message.body : Message → List Byte
  | .noteOff _ n v => [widen n, widen v]
  | .noteOn _ n v => [widen n, widen v]
  | .polyphonicAftertouch _ n p => [widen n, widen p]
  | .controlChange _ k v => [widen k, widen v]
  | .programChange _ p => [programWire p]
  | .channelAftertouch _ p => [widen p]
  | .pitchBend _ l m => [widen l, widen m]
  | .sysEx id data => widen id :: (data ++ [terminator])

/-- `content(m)`, "the exact outgoing byte sequence" (R89; 20_memory.md R47). -/
def Message.content (m : Message) : List Byte := m.statusByte :: m.body

/-- Step 7, the one normalisation of the block: a NoteOn with velocity 0 becomes the NoteOff with the same channel,
note number and velocity 0; nothing else changes (41_rx_framer.md R109; 42_channel_3byte.md R132). -/
def normalise : Message → Message
  | .noteOn ch n v => if v = 0 then .noteOff ch n v else .noteOn ch n v
  | .noteOff ch n v => .noteOff ch n v
  | .polyphonicAftertouch ch n p => .polyphonicAftertouch ch n p
  | .controlChange ch k v => .controlChange ch k v
  | .programChange ch p => .programChange ch p
  | .channelAftertouch ch p => .channelAftertouch ch p
  | .pitchBend ch l m => .pitchBend ch l m
  | .sysEx id data => .sysEx id data

end Sys2Proof.Machine
end

