-- ==== Sys2Proof/Machine/State.lean ====
section
/-! DEFINITION. The state of the block (spec/10_state.md R10), the events that drive it (R30), the state after reset
(R28), and the ways a step can stop. Plain data throughout. -/

namespace Sys2Proof.Machine

/-- The sequencing register, the program counter of the block (R13). -/
inductive Phase where
  | idle | awaitStatus | awaitData1 | awaitData2 | sysExAccumulate | done
deriving DecidableEq, Repr

/-- The channel filter, 5 bits: bit 4 `omni`, bits 3:0 `ch`, a wire channel (R16). -/
structure Filter where
  omni : Bool
  ch : WireChannel
deriving DecidableEq, Repr

/-- The causes of 60_exceptions.md R201, in the order of their codes 0 to 8. -/
inductive Cause where
  | noCause | invalidField | invalidChannel | unrecognizedStatus | streamTimeout
  | streamEnded | partialMessage | channelFiltered | sysExOverflow
deriving DecidableEq, Repr

/-- `result.outcome` (R17). -/
inductive RxOutcome where
  | noOutcome | message | noMessage | error
deriving DecidableEq, Repr

/-- `tx_result.outcome` (R23). -/
inductive TxOutcome where
  | noOutcome | sent | error
deriving DecidableEq, Repr

/-- `result` (R17). `infoReason` holds a cause: none, StreamTimeout or StreamEnded. `msg` is there only when the
outcome is Message. -/
structure RxResult where
  outcome : RxOutcome
  cause : Cause
  infoField : BitVec 2
  infoReason : Cause
  infoStatus : Byte
  msg : Option Message
deriving DecidableEq, Repr

/-- `tx_result` (R23). -/
structure TxResult where
  outcome : TxOutcome
  cause : Cause
  infoField : BitVec 2
  count : Nat
deriving DecidableEq, Repr

/-- The command of a `Send` (46_tx_serializer.md R180); every field port is `FIELD_W` = 8 bits. -/
structure Command where
  kind : KindTag
  channel : Byte
  f1 : Byte
  f2 : Byte
  data : List Byte
deriving DecidableEq, Repr

/-- The events that drive the block (R30). -/
inductive Event where
  /-- Host: reset (R28). -/
  | reset
  /-- Host: open a read operation with this filter (41_rx_framer.md R100). -/
  | readStart (f : Filter)
  /-- Byte source: the answer is a byte (20_memory.md R42). -/
  | byte (b : Byte)
  /-- Byte source: no byte within its configured wait. -/
  | timeout
  /-- Byte source: end of stream. -/
  | ended
  /-- Host: open a send operation (46_tx_serializer.md R180). -/
  | send (m : Command) (bcast : Bool)
  /-- Byte sink: it has taken the head of `tx_queue` (46_tx_serializer.md R188). -/
  | sinkTake
deriving DecidableEq, Repr

/-- The state of the block: the RX state and the TX state of R10, "nothing else is state". What the byte source holds,
what the host will issue and what the host and the sink have received are no part of it (00_scope.md R9). -/
structure Block where
  /-- RX: which byte of the message the framer waits for (R13). -/
  phase : Phase
  /-- RX: byte 0 of the message (R11). -/
  status : Byte
  /-- RX: the first byte after it, the SysEx id included (R12). -/
  data1 : Byte
  /-- RX: the second data byte of a three-byte message (R12). -/
  data2 : Byte
  /-- RX: the SysEx data bytes (R15). -/
  sxBuf : List Byte
  /-- RX: the channel filter of the open read operation (R16). -/
  filter : Filter
  /-- RX: how the last read operation ended (R17). -/
  result : RxResult
  /-- TX: the bytes of the open send operation the sink has not taken (R21). -/
  txQueue : List Byte
  /-- TX: bytes taken in this send operation (R22). -/
  txCount : Nat
  /-- TX: how the last send operation ended (R23). -/
  txResult : TxResult
deriving DecidableEq, Repr

/-- The block and the outside it runs in, which Host/Core.lean's one-argument step needs in one place. The three fields
beside the block are the arguments and the outputs of the block's own step function `blockStep` (Machine/Events.lean),
which reads neither `inputs` nor `sink` (00_scope.md R5, R9; log 2). -/
structure State extends Block where
  /-- OUTSIDE: the OPEN parameters of 00_scope.md R4 (log 7). -/
  params : Params
  /-- OUTSIDE: the events still to come, first one next (log 2). -/
  inputs : List Event
  /-- OUTSIDE: the bytes the sink has taken, first one first (log 3). -/
  sink : List Byte
deriving DecidableEq, Repr

/-- The registers right after reset (R28). `status`, `data1`, `data2` and `filter` are unspecified there; the value 0 is
the model's own choice (DESIGN CHOICE, log 6; unsafe, and no statement rests on it). -/
def Block.reset : Block :=
  { phase := .idle, status := 0, data1 := 0, data2 := 0, sxBuf := [], filter := ⟨false, 0⟩
    result := ⟨.noOutcome, .noCause, 0, .noCause, 0, none⟩
    txQueue := [], txCount := 0, txResult := ⟨.noOutcome, .noCause, 0, 0⟩ }

/-- The machine right after reset: the block reset, no event to come, nothing sent. -/
def State.reset : State := { toBlock := Block.reset, params := Params.unbounded, inputs := [], sink := [] }

/-- Why the machine stops with a fault: never. The errors of the spec are outcomes an operation ends with, after
which the unit goes on (60_exceptions.md R200, R210, R213), so no constructor is raised by anything. -/
inductive Fault where
deriving DecidableEq, Repr

/-- Why a step gives no meaning. -/
inductive Refusal where
  /-- Raised by exec's arm of an instruction that has no meaning yet. No arm is left so. Safe. -/
  | notModelled (mnemonic : String)
  /-- Raised by `handle` on an event the block does not accept in its state: "the model gives it no meaning"
  (10_state.md R31; 93_implementation_defined.md U11; log 5). Safe. -/
  | eventNotAccepted (e : Event)
deriving DecidableEq, Repr

end Sys2Proof.Machine
end

