-- ==== Sys2Proof/Machine/Flags.lean ====
section
/-! DEFINITION. The condition codes of the block (spec/10_state.md R17, R18, R23): the block has no arithmetic flag,
its only flags are the outcome records. Every record an operation can end with, and the numeric codes of R13, R17,
R23 and 60_exceptions.md R201. -/

namespace Sys2Proof.Machine

/-! ### Numeric codes -/

/-- The codes of `phase` (R13). -/
def Phase.code : Phase → BitVec 3
  | .idle => 0 | .awaitStatus => 1 | .awaitData1 => 2 | .awaitData2 => 3 | .sysExAccumulate => 4 | .done => 5

/-- The cause codes (60_exceptions.md R201). -/
def Cause.code : Cause → BitVec 4
  | .noCause => 0 | .invalidField => 1 | .invalidChannel => 2 | .unrecognizedStatus => 3 | .streamTimeout => 4
  | .streamEnded => 5 | .partialMessage => 6 | .channelFiltered => 7 | .sysExOverflow => 8

/-- The codes of `result.outcome` (R17). -/
def RxOutcome.code : RxOutcome → BitVec 2
  | .noOutcome => 0 | .message => 1 | .noMessage => 2 | .error => 3

/-- The codes of `tx_result.outcome` (R23). -/
def TxOutcome.code : TxOutcome → BitVec 2
  | .noOutcome => 0 | .sent => 1 | .error => 3

/-! ### Outcomes of a read operation -/

/-- No operation finished: outcome None, every other field 0, no `msg` (R17). -/
def RxResult.empty : RxResult := ⟨.noOutcome, .noCause, 0, .noCause, 0, none⟩

/-- `Message(m)` (60_exceptions.md R200). -/
def RxResult.message (m : Message) : RxResult := ⟨.message, .noCause, 0, .noCause, 0, some m⟩

/-- `NoMessage(StreamTimeout)` or `NoMessage(StreamEnded)` (41_rx_framer.md R102; 60_exceptions.md R205). -/
def RxResult.noByte (reason : Cause) : RxResult := ⟨.noMessage, reason, 0, .noCause, 0, none⟩

/-- `NoMessage(ChannelFiltered, info_status)` (60_exceptions.md R206). -/
def RxResult.filtered (st : Byte) : RxResult := ⟨.noMessage, .channelFiltered, 0, .noCause, st, none⟩

/-- `Error(InvalidField, info_field, info_status)` (60_exceptions.md R202). -/
def RxResult.invalidField (k : BitVec 2) (st : Byte) : RxResult := ⟨.error, .invalidField, k, .noCause, st, none⟩

/-- `Error(UnrecognizedStatus, info_status)` (60_exceptions.md R204). -/
def RxResult.unrecognized (st : Byte) : RxResult := ⟨.error, .unrecognizedStatus, 0, .noCause, st, none⟩

/-- `Error(PartialMessage, info_reason, info_status)` (60_exceptions.md R207). -/
def RxResult.partialMessage (reason : Cause) (st : Byte) : RxResult := ⟨.error, .partialMessage, 0, reason, st, none⟩

/-- `Error(SysExOverflow, info_status = 0xF0)` (44_sysex.md R162; 60_exceptions.md R201, R208; written as R210 says). The
table of 10_state.md R17 does not name this cause at `info_status` and says "else 0" (log 17). -/
def RxResult.overflow : RxResult := ⟨.error, .sysExOverflow, 0, .noCause, sysexStart, none⟩

/-! ### Outcomes of a send operation -/

/-- No operation finished (R23). -/
def TxResult.empty : TxResult := ⟨.noOutcome, .noCause, 0, 0⟩

/-- `Sent(count)` (46_tx_serializer.md R189). -/
def TxResult.sent (count : Nat) : TxResult := ⟨.sent, .noCause, 0, count⟩

/-- `Error(InvalidField, info_field)`, count 0 (46_tx_serializer.md R182). -/
def TxResult.invalidField (k : BitVec 2) : TxResult := ⟨.error, .invalidField, k, 0⟩

/-- `Error(InvalidChannel)`, `info_field` 0, count 0 (R23; 46_tx_serializer.md R182). -/
def TxResult.invalidChannel : TxResult := ⟨.error, .invalidChannel, 0, 0⟩

end Sys2Proof.Machine
end

