-- ==== Sys2Proof/Machine/Operands.lean ====
section
/-! DEFINITION. The operand forms of the block: a message built from wire bytes by the INTERNAL constructor path
(spec/40_message_model.md R84, R85), a message built from the fields of a command by the EXTERNAL path (R83, R85;
46_tx_serializer.md R182), and the channel filter (41_rx_framer.md R111). A value out of range is refused, never
clamped or masked (R81). -/

namespace Sys2Proof.Machine

/-! ### The internal constructor path -/

/-- A message built from wire bytes, or the first failing field in wire order (R82). -/
inductive Built where
  | message (m : Message)
  | badField (k : BitVec 2)
deriving DecidableEq, Repr

/-- A kind with two 7-bit fields (41_rx_framer.md R107, R108). -/
def build2 (mk : Data7 → Data7 → Message) (d1 d2 : Byte) : Built :=
  if 127 < d1 then .badField 1
  else if 127 < d2 then .badField 2
  else .message (mk (low7 d1) (low7 d2))

/-- A kind with one 7-bit wire byte. It is handed on whole: ProgramChange adds 1 to it in 8 bits (R84; 30_encoding.md
R65). -/
def build1 (mk : Byte → Message) (d1 : Byte) : Built :=
  if 127 < d1 then .badField 1 else .message (mk d1)

/-- A SysEx message: the id, then at least one data byte, in this order (R85; 44_sysex.md R163). -/
def buildSysEx (id : Byte) (data : List Byte) : Built :=
  if 127 < id then .badField 1
  else if data = [] then .badField 2
  else .message (.sysEx (low7 id) data)

/-! ### The external constructor path -/

/-- What validating a command gives (46_tx_serializer.md R182). -/
inductive Validated where
  | message (m : Message)
  | invalidField (k : BitVec 2)
  | invalidChannel
deriving DecidableEq, Repr

/-- The first field of a command that is out of range, if any (R182, R183). Fields the kind does not use are not
examined (R180). -/
def badField (c : Command) : Option (BitVec 2) :=
  match c.kind with
  | .noteOff | .noteOn | .polyphonicAftertouch | .controlChange | .pitchBend =>
    if 127 < c.f1 then some 1 else if 127 < c.f2 then some 2 else none
  | .programChange => if c.f1 < 1 ∨ 128 < c.f1 then some 1 else none
  | .channelAftertouch => if 127 < c.f1 then some 1 else none
  | .sysEx =>
    if 127 < c.f1 then some 1
    else if c.data = [] then some 2
    else if bodyOk c.data then none else some 2

/-- The message a command names, its fields taken at their widths (R182). -/
def commandMessage (c : Command) : Message :=
  let ch : Channel := c.channel.setWidth 5
  match c.kind with
  | .noteOff => .noteOff ch (low7 c.f1) (low7 c.f2)
  | .noteOn => .noteOn ch (low7 c.f1) (low7 c.f2)
  | .polyphonicAftertouch => .polyphonicAftertouch ch (low7 c.f1) (low7 c.f2)
  | .controlChange => .controlChange ch (low7 c.f1) (low7 c.f2)
  | .programChange => .programChange ch c.f1
  | .channelAftertouch => .channelAftertouch ch (low7 c.f1)
  | .pitchBend => .pitchBend ch (low7 c.f1) (low7 c.f2)
  | .sysEx => .sysEx (low7 c.f1) c.data

/-- `Validate(cmd)`: the fields first, then the channel, which SysEx does not have (R182; R87). -/
def validate (c : Command) : Validated :=
  match badField c with
  | some k => .invalidField k
  | none =>
    if c.kind ≠ .sysEx ∧ (c.channel < 1 ∨ 16 < c.channel) then .invalidChannel
    else .message (commandMessage c)

/-- The sixteen external channels, 1 first (46_tx_serializer.md R186; the ascending order is the spec's decision
D14). -/
def allChannels : List Channel := [1, 2, 3, 4, 5, 6, 7, 8, 9, 10, 11, 12, 13, 14, 15, 16]

/-- `Out(m, bcast)` (46_tx_serializer.md R184 to R187). -/
def outBytes (m : Message) (bcast : Bool) : List Byte :=
  if m.tag = .sysEx ∨ bcast = false then m.content
  else allChannels.flatMap fun ch => (m.withChannel ch).content

/-! ### The channel filter -/

/-- A channel message passes when the filter is omni or names its channel (41_rx_framer.md R107, R111). -/
def Filter.passes (f : Filter) (ch : Channel) : Bool := f.omni || ch == channelOf f.ch

end Sys2Proof.Machine
end

