-- ==== Sys2Proof/Machine/Ops.lean ====
section
/-! DEFINITION. The named operations over the registers: latching a byte, moving `phase`, and how an operation ends
(the spec's `raise` and `deliver`, spec/60_exceptions.md R210) and how the next one opens (R213). -/

namespace Sys2Proof.Machine

/-! ### Latches -/

/-- `x[status] <- b` (10_state.md R11). -/
def latchStatus (b : Byte) (s : State) : State := { s with status := b }

/-- `x[data1] <- b` (10_state.md R12). -/
def latchData1 (b : Byte) (s : State) : State := { s with data1 := b }

/-- `x[data2] <- b` (10_state.md R12). -/
def latchData2 (b : Byte) (s : State) : State := { s with data2 := b }

/-- `x[sx_buf] <- bs` (10_state.md R15). -/
def setBuf (bs : List Byte) (s : State) : State := { s with sxBuf := bs }

/-- `phase <- p` (00_scope.md R7). -/
def goto (p : Phase) (s : State) : State := { s with phase := p }

/-! ### The end of a read operation -/

/-- `raise E(info)` and `deliver v` on RX, the whole of "trap entry": the outcome is written as a whole and the framer
stops in Done; nothing is saved and nothing else changes (60_exceptions.md R210). -/
def endRead (r : RxResult) (s : State) : State := { s with result := r, phase := .done }

/-- What takes the place of a return: the next `ReadStart` clears the outcome and opens an operation "that owes nothing
to the one before" (60_exceptions.md R213; 41_rx_framer.md R100). -/
def openRead (f : Filter) (s : State) : State :=
  { s with filter := f, result := RxResult.empty, sxBuf := [], phase := .awaitStatus }

/-- Steps 6 to 9 for a channel message, in their order: a failed construction is raised; a message is normalised, then
filtered, then delivered (41_rx_framer.md R107 to R111, R113). -/
def finishChannel (built : Built) (c : WireChannel) (st : Byte) (s : State) : State :=
  match built with
  | .badField k => endRead (RxResult.invalidField k st) s
  | .message m =>
    if s.filter.passes (channelOf c) then endRead (RxResult.message (normalise m)) s
    else endRead (RxResult.filtered st) s

/-- Completion of a SysEx frame: no channel, no filter, no normalisation (44_sysex.md R163). -/
def finishSysEx (built : Built) (s : State) : State :=
  match built with
  | .badField k => endRead (RxResult.invalidField k sysexStart) s
  | .message m => endRead (RxResult.message m) s

/-! ### Whole frames -/

/-- A three-byte frame of type nibble `n`: its bytes are latched, then it is completed (41_rx_framer.md R104, R106,
R107). -/
def runThreeByte (n : Nibble) (mk : Channel → Data7 → Data7 → Message) (c : WireChannel) (d1 d2 : Byte) (s : State) :
    State :=
  finishChannel (build2 (mk (channelOf c)) d1 d2) c (statusOf n c)
    (latchData2 d2 (latchData1 d1 (latchStatus (statusOf n c) s)))

/-- A two-byte frame of type nibble `n`; `data2` is neither written nor read (43_channel_2byte.md). -/
def runTwoByte (n : Nibble) (mk : Channel → Byte → Message) (c : WireChannel) (d1 : Byte) (s : State) : State :=
  finishChannel (build1 (mk (channelOf c)) d1) c (statusOf n c) (latchData1 d1 (latchStatus (statusOf n c) s))

/-- A first byte of type nibble 0xF other than 0xF0: refused at the status byte (45_unrecognized.md R171). -/
def runAlone (st : Byte) (s : State) : State := endRead (RxResult.unrecognized st) (latchStatus st s)

/-! ### The send operation -/

/-- `raise E(info)` on TX: the outcome is written, no byte was queued (60_exceptions.md R210; 46_tx_serializer.md
R191). -/
def raiseTx (r : TxResult) (s : State) : State := { s with txResult := r, txQueue := [], txCount := 0 }

/-- A validated command loads the queue; the count and the outcome of the send before are cleared (46_tx_serializer.md
R181, R184). -/
def openSend (bytes : List Byte) (s : State) : State :=
  { s with txResult := TxResult.empty, txQueue := bytes, txCount := 0 }

/-- A counter of `COUNT_W` bits: a natural number by default, modulo `2^COUNT_W` in a circuit that has the width
(40_message_model.md R95; 92_eei_decisions.md D16). -/
def countTo (p : Params) (n : Nat) : Nat :=
  match p.countWidth with
  | none => n
  | some w => n % 2 ^ w

/-- `MemWrite(TX, 1, b)`: the sink now holds `b` (20_memory.md R45). -/
def memWrite (b : Byte) (s : State) : State := { s with sink := s.sink ++ [b] }

/-- The sink has taken the head `b` of the queue and `rest` is left; the last byte ends the operation with
`Sent(count)` (46_tx_serializer.md R188, R189). -/
def takeByte (b : Byte) (rest : List Byte) (s : State) : State :=
  let n := countTo s.params (s.txCount + 1)
  let s := memWrite b { s with txQueue := rest, txCount := n }
  if rest = [] then { s with txResult := TxResult.sent n } else s

/-! ### Reset -/

/-- The event `Reset`: both units take their values of reset; the source, the sink and the parameters are not touched
(10_state.md R28; 70_reset_and_hazards.md R230, R231). For `status`, `data1`, `data2` and `filter`, which the spec
leaves unspecified, the value 0 is the model's (DESIGN CHOICE, log 6). -/
def resetBlock (s : State) : State := { s with toBlock := Block.reset }

end Sys2Proof.Machine
end

