-- ==== Sys2Proof/Machine/SysEx.lean ====
section
/-! DEFINITION. SysEx (spec/44_sysex.md), receive semantics of a frame whose 0xF7 has come. -/

namespace Sys2Proof.Machine

/-- SYSEX (R160, R163): the id is in `data1`, the data in `sx_buf`; the terminator is consumed and not kept. -/
def execSysex (id : Byte) (data : List Byte) (s : State) : Host.Outcome State Fault Refusal :=
  .next (finishSysEx (buildSysEx id data) (setBuf data (latchData1 id (latchStatus sysexStart s))))

end Sys2Proof.Machine
end

