-- ==== Sys2Proof/Machine/ThreeByte.lean ====
section
/-! DEFINITION. The three-byte channel messages (spec/42_channel_3byte.md), receive semantics: the meaning of a frame
whose last byte has come. -/

namespace Sys2Proof.Machine

/-- NOTE_OFF (R130). -/
def execNoteOff (c : WireChannel) (note velocity : Byte) (s : State) : Host.Outcome State Fault Refusal :=
  .next (runThreeByte 0x8 .noteOff c note velocity s)

/-- NOTE_ON (R131); a velocity of 0 is delivered as NoteOff by `normalise` (R132). -/
def execNoteOn (c : WireChannel) (note velocity : Byte) (s : State) : Host.Outcome State Fault Refusal :=
  .next (runThreeByte 0x9 .noteOn c note velocity s)

/-- POLY_AT (R133). -/
def execPolyAt (c : WireChannel) (note pressure : Byte) (s : State) : Host.Outcome State Fault Refusal :=
  .next (runThreeByte 0xA .polyphonicAftertouch c note pressure s)

/-- CTRL_CHANGE (R134). -/
def execCtrlChange (c : WireChannel) (control value : Byte) (s : State) : Host.Outcome State Fault Refusal :=
  .next (runThreeByte 0xB .controlChange c control value s)

/-- PITCH_BEND (R135): `lsbyte` is data byte 1, `msbyte` data byte 2. -/
def execPitchBend (c : WireChannel) (lsbyte msbyte : Byte) (s : State) : Host.Outcome State Fault Refusal :=
  .next (runThreeByte 0xE .pitchBend c lsbyte msbyte s)

end Sys2Proof.Machine
end

