-- ==== Sys2Proof/Machine/TwoByte.lean ====
section
/-! DEFINITION. The two-byte channel messages (spec/43_channel_2byte.md), receive semantics. -/

namespace Sys2Proof.Machine

/-- PROG_CHANGE (R150): `program_number = zext_8(data1) + 1`, the offset applied once. -/
def execProgChange (c : WireChannel) (w : Byte) (s : State) : Host.Outcome State Fault Refusal :=
  .next (runTwoByte 0xC (fun ch b => .programChange ch (programOf b)) c w s)

/-- CHAN_AT (R151). -/
def execChanAt (c : WireChannel) (pressure : Byte) (s : State) : Host.Outcome State Fault Refusal :=
  .next (runTwoByte 0xD (fun ch b => .channelAftertouch ch (low7 b)) c pressure s)

end Sys2Proof.Machine
end

