-- ==== Sys2Proof/Machine/Unrecognized.lean ====
section
/-! DEFINITION. Unrecognized first bytes (spec/45_unrecognized.md). -/

namespace Sys2Proof.Machine

/-- UNREC_DATA (R170): two more bytes are consumed, whatever they are, then `UnrecognizedStatus`. -/
def execUnrecData (x : Data7) (ignored1 ignored2 : Byte) (s : State) : Host.Outcome State Fault Refusal :=
  .next (endRead (RxResult.unrecognized (widen x)) (latchData2 ignored2 (latchData1 ignored1 (latchStatus (widen x) s))))

/-- UNREC_F1 (R171). -/
def execUnrecF1 (s : State) : Host.Outcome State Fault Refusal := .next (runAlone 0xF1 s)

/-- UNREC_F2_F3 (R171). -/
def execUnrecF2F3 (x : BitVec 1) (s : State) : Host.Outcome State Fault Refusal :=
  .next (runAlone (0b1111001#7 ++ x) s)

/-- UNREC_F4_F7 (R171). -/
def execUnrecF4F7 (x : BitVec 2) (s : State) : Host.Outcome State Fault Refusal :=
  .next (runAlone (0b111101#6 ++ x) s)

/-- UNREC_F8_FF (R171). -/
def execUnrecF8FF (x : BitVec 3) (s : State) : Host.Outcome State Fault Refusal :=
  .next (runAlone (0b11111#5 ++ x) s)

end Sys2Proof.Machine
end

