-- ==== Sys2Proof/Machine/Dispatch.lean ====
section
/-! DEFINITION. The effect of a complete frame, one arm per row of opcode_table.json (spec/41_rx_framer.md R107). -/

namespace Sys2Proof.Machine

def exec (i : Instr) (s : State) : Host.Outcome State Fault Refusal :=
  match i with
  | .noteOff c n v => Sys2Proof.Machine.execNoteOff c n v s
  | .noteOn c n v => Sys2Proof.Machine.execNoteOn c n v s
  | .polyAt c n p => Sys2Proof.Machine.execPolyAt c n p s
  | .ctrlChange c k v => Sys2Proof.Machine.execCtrlChange c k v s
  | .progChange c w => Sys2Proof.Machine.execProgChange c w s
  | .chanAt c p => Sys2Proof.Machine.execChanAt c p s
  | .pitchBend c l m => Sys2Proof.Machine.execPitchBend c l m s
  | .sysex id data => Sys2Proof.Machine.execSysex id data s
  | .unrecData x b1 b2 => Sys2Proof.Machine.execUnrecData x b1 b2 s
  | .unrecF1 => Sys2Proof.Machine.execUnrecF1 s
  | .unrecF2F3 x => Sys2Proof.Machine.execUnrecF2F3 x s
  | .unrecF4F7 x => Sys2Proof.Machine.execUnrecF4F7 x s
  | .unrecF8FF x => Sys2Proof.Machine.execUnrecF8FF x s

end Sys2Proof.Machine
end

