-- ==== Sys2Proof/Machine/Rx.lean ====
section
/-! DEFINITION. The RX framer as a step function over the events of spec/10_state.md R30: the read algorithm of
41_rx_framer.md, byte by byte. The fetch of an instruction takes one event a byte; the byte that completes a frame
runs it (R107: "in the same step as the last byte of the frame"). -/

namespace Sys2Proof.Machine

/-- `ReadStart(f)` (R100), accepted in Idle and Done (10_state.md R31). -/
def onReadStart (f : Filter) (s : State) : Host.Outcome State Fault Refusal :=
  match s.phase with
  | .idle | .done => .next (openRead f s)
  | .awaitStatus | .awaitData1 | .awaitData2 | .sysExAccumulate => .refused (.eventNotAccepted (.readStart f))

/-- `Complete` (R107): the frame held in the latches is the instruction, and it runs. -/
def complete (s : State) : Host.Outcome State Fault Refusal :=
  exec (instrOf s.status s.data1 s.data2 s.sxBuf) s

/-- The buffer is full: `len(x[sx_buf]) = SYSEX_CAP`, never true when it is unbounded (44_sysex.md R162). -/
def bufFull (s : State) : Bool := s.params.sysexCap == some s.sxBuf.length

/-- Phase AwaitStatus, event `Byte(b)` (R101). -/
def byteAtStatus (b : Byte) (s : State) : Host.Outcome State Fault Refusal :=
  if b = sysexStart then .next (goto .awaitData1 (latchStatus b s))
  else if typeNibble b = 0xF then complete (latchStatus b s)
  else .next (goto .awaitData1 (latchStatus b s))

/-- Phase AwaitData1, event `Byte(b)` (R104). -/
def byteAtData1 (b : Byte) (s : State) : Host.Outcome State Fault Refusal :=
  if s.status = sysexStart then .next (goto .sysExAccumulate (latchData1 b s))
  else if typeNibble s.status = 0xC ∨ typeNibble s.status = 0xD then complete (latchData1 b s)
  else .next (goto .awaitData2 (latchData1 b s))

/-- Phase AwaitData2, event `Byte(b)` (R106). -/
def byteAtData2 (b : Byte) (s : State) : Host.Outcome State Fault Refusal := complete (latchData2 b s)

/-- Phase SysExAccumulate, event `Byte(b)` (R117; 44_sysex.md R162). -/
def byteAtSysEx (b : Byte) (s : State) : Host.Outcome State Fault Refusal :=
  if b = terminator then complete s
  else if bufFull s then .next (endRead RxResult.overflow s)
  else .next (setBuf (s.sxBuf ++ [b]) s)

/-- The source's answer `Byte(b)`: accepted only while a byte request is outstanding (10_state.md R31; R120). -/
def onByte (b : Byte) (s : State) : Host.Outcome State Fault Refusal :=
  match s.phase with
  | .idle | .done => .refused (.eventNotAccepted (.byte b))
  | .awaitStatus => byteAtStatus b s
  | .awaitData1 => byteAtData1 b s
  | .awaitData2 => byteAtData2 b s
  | .sysExAccumulate => byteAtSysEx b s

/-- The source's answers `Timeout` and `Ended`, `e` being the event and `reason` its condition: "no message" at the
first byte (R102), `PartialMessage` after it (R105). -/
def onCut (e : Event) (reason : Cause) (s : State) : Host.Outcome State Fault Refusal :=
  match s.phase with
  | .idle | .done => .refused (.eventNotAccepted e)
  | .awaitStatus => .next (endRead (RxResult.noByte reason) s)
  | .awaitData1 | .awaitData2 | .sysExAccumulate => .next (endRead (RxResult.partialMessage reason s.status) s)

/-! ### A read operation that has taken part of a frame -/

/-- The bytes the open read operation has taken so far, as the latches hold them. -/
def frameSoFar (s : State) : List Byte :=
  match s.phase with
  | .idle | .done | .awaitStatus => []
  | .awaitData1 => [s.status]
  | .awaitData2 => [s.status, s.data1]
  | .sysExAccumulate => s.status :: s.data1 :: s.sxBuf

/-- A read operation, under the filter that `s` holds, that has taken the bytes `taken` and waits for the next one:
what `ReadStart` and these bytes leave in the registers (R100, R101, R104; 44_sysex.md R160). -/
def afterBytes (taken : List Byte) (s : State) : State :=
  let s := openRead s.filter s
  match taken with
  | [] => s
  | [st] => goto .awaitData1 (latchStatus st s)
  | st :: d1 :: more =>
    if st = sysexStart then goto .sysExAccumulate (setBuf more (latchData1 d1 (latchStatus st s)))
    else goto .awaitData2 (latchData1 d1 (latchStatus st s))

/-- The instruction `i` placed where the framer fetches it: all its frame's bytes but the last are taken, and the last
is the next event (log 10). -/
def withFrame (i : Instr) (s : State) : State :=
  let frame := encode i
  { afterBytes frame.dropLast s with inputs := (frame.drop (frame.length - 1)).map Event.byte ++ s.inputs }

end Sys2Proof.Machine
end

