-- ==== Sys2Proof/Machine/Tx.lean ====
section
/-! DEFINITION. The TX serializer as a step function over events (spec/46_tx_serializer.md). -/

namespace Sys2Proof.Machine

/-- `Send(m, bcast)`: accepted when no send operation is open, that is when the queue is empty; the command is sampled
and validated, and the queue loaded, in one step (R181, R182, R184, R191). -/
def onSend (m : Command) (bcast : Bool) (s : State) : Host.Outcome State Fault Refusal :=
  match s.txQueue with
  | _ :: _ => .refused (.eventNotAccepted (.send m bcast))
  | [] =>
    match validate m with
    | .invalidField k => .next (raiseTx (TxResult.invalidField k) s)
    | .invalidChannel => .next (raiseTx TxResult.invalidChannel s)
    | .message msg => .next (openSend (outBytes msg bcast) s)

/-- `SinkTake` (R188): accepted when the queue is not empty (10_state.md R31). -/
def onSinkTake (s : State) : Host.Outcome State Fault Refusal :=
  match s.txQueue with
  | [] => .refused (.eventNotAccepted .sinkTake)
  | b :: rest => .next (takeByte b rest s)

end Sys2Proof.Machine
end

