-- ==== Sys2Proof/Machine/Events.lean ====
section
/-! DEFINITION. The step function of the spec: from a state and an event to the next state (spec/00_scope.md R5;
10_state.md R30, R31), and the event a step takes. -/

namespace Sys2Proof.Machine

/-- The framer has a byte request outstanding: `phase` is one of the four await phases (R31, R32). -/
def Phase.awaits : Phase → Bool
  | .idle | .done => false
  | .awaitStatus | .awaitData1 | .awaitData2 | .sysExAccumulate => true

/-- Acceptance, exactly R31. -/
def accepts (e : Event) (s : State) : Bool :=
  match e with
  | .reset => true
  | .readStart _ => s.phase == .idle || s.phase == .done
  | .byte _ => s.phase.awaits
  | .timeout => s.phase.awaits
  | .ended => s.phase.awaits
  | .send _ _ => s.txQueue.isEmpty
  | .sinkTake => !s.txQueue.isEmpty

/-- One event (R30). An event that is not accepted has no step (R31). -/
def handle (e : Event) (s : State) : Host.Outcome State Fault Refusal :=
  match e with
  | .reset => .next (resetBlock s)
  | .readStart f => onReadStart f s
  | .byte b => onByte b s
  | .timeout => onCut .timeout .streamTimeout s
  | .ended => onCut .ended .streamEnded s
  | .send m bcast => onSend m bcast s
  | .sinkTake => onSinkTake s

/-- The step function of the spec: from the parameters, an event and the state of the block to its next state and the
bytes it writes to the sink (00_scope.md R5, R7). The events still to come are its argument one by one, never a part of
the state it reads (R9). -/
def blockStep (p : Params) (e : Event) (b : Block) : Host.Outcome (Block × List Byte) Fault Refusal :=
  match handle e { toBlock := b, params := p, inputs := [], sink := [] } with
  | .next t => .next (t.toBlock, t.sink)
  | .fault r => .fault r
  | .refused r => .refused r

/-- One step of the machine: the next event is taken and handled. With no event to come the block waits, and its state
stays as it is (60_exceptions.md R218; 70_reset_and_hazards.md R240, R246; log 4). -/
def stepOnce (s : State) : Host.Outcome State Fault Refusal :=
  match s.inputs with
  | [] => .next s
  | e :: rest => handle e { s with inputs := rest }

end Sys2Proof.Machine
end

