-- ==== Sys2Proof/Machine/Outputs.lean ====
section
/-! DEFINITION. The outputs of the block (spec/10_state.md R32), functions of the state alone, and the informative
ports of R33: the output ports read from the state, and the events and arguments the input ports stand for. An
output a kind does not have is absent (R19). -/

namespace Sys2Proof.Machine

/-! ### RX outputs -/

/-- `rd_ready`: `ReadStart` is accepted (R32, R33). -/
def rdReady (s : State) : Bool := s.phase == .idle || s.phase == .done

/-- `rx_req`: a byte request is outstanding (R32). -/
def rxReq (s : State) : Bool := s.phase.awaits

/-- `rd_done`: `phase = Done` (R33). -/
def rdDone (s : State) : Bool := s.phase == .done

/-- `rd_outcome` (R33). -/
def rdOutcome (s : State) : BitVec 2 := s.result.outcome.code

/-- `rd_cause` (R33). -/
def rdCause (s : State) : BitVec 4 := s.result.cause.code

/-- `rd_info_field` (R33). -/
def rdInfoField (s : State) : BitVec 2 := s.result.infoField

/-- `rd_info_reason` (R33). -/
def rdInfoReason (s : State) : BitVec 4 := s.result.infoReason.code

/-- `rd_info_status` (R33). -/
def rdInfoStatus (s : State) : Byte := s.result.infoStatus

/-- Field 1 of a message in 8 bits (R19): the program number of ProgramChange needs all eight (R65). -/
def Message.field1 : Message → Byte
  | .noteOff _ n _ => widen n
  | .noteOn _ n _ => widen n
  | .polyphonicAftertouch _ n _ => widen n
  | .controlChange _ k _ => widen k
  | .programChange _ p => p
  | .channelAftertouch _ p => widen p
  | .pitchBend _ l _ => widen l
  | .sysEx id _ => widen id

/-- Field 2 of a message; the two-byte kinds have none, and that of SysEx is its data (R19). -/
def Message.field2 : Message → Option Data7
  | .noteOff _ _ v => some v
  | .noteOn _ _ v => some v
  | .polyphonicAftertouch _ _ p => some p
  | .controlChange _ _ v => some v
  | .programChange _ _ => none
  | .channelAftertouch _ _ => none
  | .pitchBend _ _ m => some m
  | .sysEx _ _ => none

/-- `rd_kind` (R33, "for channel messages"). That it also shows the kind SysEx is the model's choice (DESIGN CHOICE,
log 18). -/
def rdKind (s : State) : Option (BitVec 3) := s.result.msg.map (·.tag.code)

/-- `rd_channel` (R33). -/
def rdChannel (s : State) : Option Channel := s.result.msg.bind (·.channel?)

/-- `rd_f1` (R33, "for channel messages"). R33 names no port for the `manufacturer_id` of a delivered SysEx message;
that it stands here, as field 1 (R19), is the model's choice (DESIGN CHOICE, log 18). -/
def rdF1 (s : State) : Option Byte := s.result.msg.map (·.field1)

/-- `rd_f2` (R33). -/
def rdF2 (s : State) : Option Data7 := s.result.msg.bind (·.field2)

/-- `rd_sx_len` (R33): the length of `sx_buf`, after a delivered SysEx message that of its data. That it shows the kept
bytes under every other outcome too, and while a frame is read, is the model's choice: they are dropped (20_memory.md
R43) and "any value to the host" (93_implementation_defined.md U13) (DESIGN CHOICE, log 19). -/
def rdSxLen (s : State) : Nat := s.sxBuf.length

/-- `rd_sx_byte` at `rd_sx_addr` (R33): the read port into `sx_buf`; no byte beyond its length. Of a delivered SysEx
message it shows the data; in every other case what it shows is the model's choice, as for `rdSxLen` (DESIGN CHOICE,
log 19). -/
def rdSxByte (addr : Nat) (s : State) : Option Byte := s.sxBuf[addr]?

/-! ### TX outputs -/

/-- `tx_ready`: `Send` is accepted (R32). -/
def txReady (s : State) : Bool := s.txQueue.isEmpty

/-- `tx_byte_valid`: there is a head of `tx_queue` (R32). -/
def txByteValid (s : State) : Bool := !s.txQueue.isEmpty

/-- `tx_byte`: the head of `tx_queue` (R32). -/
def txByte (s : State) : Option Byte := s.txQueue.head?

/-- `tx_done`: a send operation has ended and its outcome stands (R33 gives the port no more than `tx_result`;
DEDUCED, log 13). -/
def txDone (s : State) : Bool := s.txResult.outcome != .noOutcome

/-- `tx_outcome` (R33). -/
def txOutcome (s : State) : BitVec 2 := s.txResult.outcome.code

/-- `tx_cause` (R33). -/
def txCause (s : State) : BitVec 4 := s.txResult.cause.code

/-- `tx_info_field` (R33). -/
def txInfoField (s : State) : BitVec 2 := s.txResult.infoField

/-- `tx_count` (R32, R33). -/
def txCountOut (s : State) : Nat := s.txCount

/-! ### Input ports -/

/-- `rd_filter_omni`, `rd_filter_ch`: the filter argument (R33). -/
def readStartOf (omni : Bool) (ch : WireChannel) : Event := .readStart ⟨omni, ch⟩

/-- `rx_rsp_kind`, `rx_rsp_data`: one source answer; kind 3 "must not be driven" (R33). -/
def answerOf (kind : BitVec 2) (data : Byte) : Option Event :=
  if kind = 0 then some (.byte data) else if kind = 1 then some .timeout
  else if kind = 2 then some .ended else none

/-- `tx_kind`, `tx_channel`, `tx_f1`, `tx_f2`, `tx_bcast` and the SysEx data: the command (R33; 46_tx_serializer.md
R180). -/
def sendOf (kind : BitVec 3) (channel f1 f2 : Byte) (data : List Byte) (bcast : Bool) : Event :=
  .send ⟨KindTag.ofCode kind, channel, f1, f2, data⟩ bcast

end Sys2Proof.Machine
end

