-- ==== Sys2Proof/Machine/Step.lean ====
section
/-! DEFINITION. One step of the machine, and an instruction placed where the next step fetches it. Both only call the
definitions of Machine/Events.lean and Machine/Rx.lean. -/

namespace Sys2Proof.Machine

/-- One step: the next event is taken and handled (spec/00_scope.md R5). -/
def step (s : State) : Host.Outcome State Fault Refusal := stepOnce s

/-- `s` with the instruction of an opcode-table word placed where the framer fetches it: a read operation under the
filter of `s` has taken every byte of its frame but the last, and the last is the next event (log 10). Bytes that
are no whole frame change nothing. -/
def State.withFetchWord (s : State) (nbits w : Nat) : State :=
  match decodeTableWord nbits w with
  | some i => withFrame i s
  | none => s

end Sys2Proof.Machine
end

