-- ==== Sys2Proof/Safety.lean ====
section
/-! DEFINITION. Runs of the machine, and the invariant that every step keeps: what the rules say of the registers of a
block that started from reset (spec/10_state.md R10 to R23). Nothing here changes the machine. -/

namespace Sys2Proof.Machine

/-- `k` steps, stopping at the first refusal: `Host.Core.run` of this machine (`run_eq_core_run` in Laws). -/
def run : Nat → State → Host.Outcome State Fault Refusal
  | 0, s => .next s
  | k + 1, s =>
    match step s with
    | .next t => run k t
    | .fault r => .fault r
    | .refused r => .refused r

/-- An answer of the byte source (10_state.md R30). -/
def Event.isAnswer : Event → Bool
  | .byte _ | .timeout | .ended => true
  | .reset | .readStart _ | .send _ _ | .sinkTake => false

/-- An event of the RX unit (10_state.md R30, R31). -/
def Event.isRx : Event → Bool
  | .readStart _ | .byte _ | .timeout | .ended => true
  | .reset | .send _ _ | .sinkTake => false

/-- An event of the TX unit (10_state.md R30, R31). -/
def Event.isTx : Event → Bool
  | .send _ _ | .sinkTake => true
  | .reset | .readStart _ | .byte _ | .timeout | .ended => false

/-- A number within a bound that may be absent. -/
def within (n : Nat) : Option Nat → Bool
  | none => true
  | some bound => decide (n ≤ bound)

/-- A counter that fits a width that may be absent. -/
def fits (n : Nat) : Option Nat → Bool
  | none => true
  | some w => decide (n < 2 ^ w)

/-- A `result` record that the table of R17 and the causes of 60_exceptions.md R201 allow; where the two differ, for
SysExOverflow, R201 is followed (DEDUCED, log 17). A delivered message is valid and is never a NoteOn with velocity 0
(10_state.md R19; 41_rx_framer.md R113). -/
def RxResult.ok (r : RxResult) : Bool :=
  match r.outcome, r.msg with
  | .noOutcome, none => r == RxResult.empty
  | .message, some m => r == RxResult.message m && m.valid && normalise m == m
  | .noMessage, none =>
    r == RxResult.noByte .streamTimeout || r == RxResult.noByte .streamEnded || r == RxResult.filtered r.infoStatus
  | .error, none =>
    (r == RxResult.invalidField r.infoField r.infoStatus && (r.infoField == 1 || r.infoField == 2)) ||
    r == RxResult.unrecognized r.infoStatus ||
    (r == RxResult.partialMessage r.infoReason r.infoStatus &&
      (r.infoReason == .streamTimeout || r.infoReason == .streamEnded)) ||
    r == RxResult.overflow
  | _, _ => false

/-- A `tx_result` record that R23 allows: InvalidField and InvalidChannel are the only causes. -/
def TxResult.ok (r : TxResult) : Bool :=
  match r.outcome with
  | .noOutcome => r == TxResult.empty
  | .sent => r == TxResult.sent r.count
  | .error => (r == TxResult.invalidField r.infoField && (r.infoField == 1 || r.infoField == 2)) || r == TxResult.invalidChannel

/-- The data of a delivered SysEx message is what `sx_buf` holds (70_reset_and_hazards.md R244). -/
def msgInBuf (buf : List Byte) : Option Message → Bool
  | some (.sysEx _ data) => data == buf
  | _ => true

/-- The RX half of the invariant. -/
structure RxInv (s : State) : Prop where
  /-- In Idle no operation has run: `result` is None and the buffer empty (R13, R28). -/
  idle : s.phase = .idle → s.result = RxResult.empty ∧ s.sxBuf = []
  /-- While a read operation is open there is no outcome (R17, R100). -/
  noOutcomeYet : s.phase.awaits = true → s.result = RxResult.empty
  /-- In Done there is one (R13, R200). -/
  outcomeThere : s.phase = .done → s.result.outcome ≠ .noOutcome
  /-- The buffer is written only in SysExAccumulate (R15). -/
  bufEmpty : s.phase = .awaitStatus ∨ s.phase = .awaitData1 ∨ s.phase = .awaitData2 → s.sxBuf = []
  /-- AwaitData1 is entered with a first byte that has a second one after it (41_rx_framer.md R101). -/
  atData1 : s.phase = .awaitData1 → frameClass s.status ≠ .alone
  /-- AwaitData2 is entered only for `status` 0x00 to 0xBF or 0xE0 to 0xEF (41_rx_framer.md R106). -/
  atData2 : s.phase = .awaitData2 → frameClass s.status = .twoData
  /-- SysExAccumulate is entered only for `status` = 0xF0 (41_rx_framer.md R104). -/
  atSysEx : s.phase = .sysExAccumulate → s.status = sysexStart
  /-- The terminator is never in the buffer (44_sysex.md R162). -/
  body : bodyOk s.sxBuf = true
  /-- The buffer holds at most `SYSEX_CAP` bytes (R15). -/
  cap : within s.sxBuf.length s.params.sysexCap = true
  /-- `result` is a record of R17. -/
  result : s.result.ok = true
  /-- Code 8 is never produced with an unbounded buffer (60_exceptions.md R208). -/
  overflow : s.result.cause = .sysExOverflow → s.params.sysexCap ≠ none
  /-- A delivered SysEx `data` lives in `sx_buf` (70_reset_and_hazards.md R244). -/
  delivered : msgInBuf s.sxBuf s.result.msg = true

/-- The TX half of the invariant. -/
structure TxInv (s : State) : Prop where
  /-- While a send operation is open there is no outcome (R21, R23). -/
  noOutcomeYet : s.txQueue ≠ [] → s.txResult = TxResult.empty
  /-- `tx_result` is a record of R23. -/
  result : s.txResult.ok = true
  /-- `count` is a copy of `tx_count` when the outcome is Sent (R23). -/
  sentCount : s.txResult.outcome = .sent → s.txResult.count = s.txCount
  /-- A send that failed has counted nothing (46_tx_serializer.md R191). -/
  errorCount : s.txResult.outcome = .error → s.txCount = 0
  /-- `tx_count` fits its width (R22). -/
  width : fits s.txCount s.params.countWidth = true

/-- The invariant of the block. -/
structure Inv (s : State) : Prop where
  rx : RxInv s
  tx : TxInv s

end Sys2Proof.Machine
end

