-- ==== Sys2Proof/Certificates/Slice0/Obligations.lean ====
section
/-! DEFINITION. The statements for the provers. Each docstring names the rule of spec/ it formalises; where a clause is
the model's own choice it names the log entry. The RX outcome of a frame is spelled out here as a raw record, field by
field (spec/10_state.md R17), so that these statements do not lean on the record builders of Machine/Flags.lean. -/

open Sys2Proof Sys2Proof.Machine

/-! ### What the statements say of outcomes -/

/-- `result` after a frame with first byte `st` and two 7-bit fields, under the filter `f` (41_rx_framer.md R107): the
first failing field, else ChannelFiltered, else the message `m`. -/
def Sys2Proof.Claims.twoFieldResult (f : Filter) (st d1 d2 : Byte) (m : Message) : RxResult :=
  if d1.toNat > 127 then ⟨.error, .invalidField, 1, .noCause, st, none⟩
  else if d2.toNat > 127 then ⟨.error, .invalidField, 2, .noCause, st, none⟩
  else if f.omni = false ∧ st.toNat % 16 ≠ f.ch.toNat then ⟨.noMessage, .channelFiltered, 0, .noCause, st, none⟩
  else ⟨.message, .noCause, 0, .noCause, 0, some m⟩

/-- The same with one 7-bit field (43_channel_2byte.md R150, R151). -/
def Sys2Proof.Claims.oneFieldResult (f : Filter) (st d1 : Byte) (m : Message) : RxResult :=
  if d1.toNat > 127 then ⟨.error, .invalidField, 1, .noCause, st, none⟩
  else if f.omni = false ∧ st.toNat % 16 ≠ f.ch.toNat then ⟨.noMessage, .channelFiltered, 0, .noCause, st, none⟩
  else ⟨.message, .noCause, 0, .noCause, 0, some m⟩

/-- The status byte of type nibble `n` and wire channel `c`, as a number (30_encoding.md R60). -/
def Sys2Proof.Claims.statusByte (n : Nat) (c : WireChannel) : Byte := BitVec.ofNat 8 (16 * n + c.toNat)

/-- The external channel of a wire channel (30_encoding.md R64). -/
def Sys2Proof.Claims.channel (c : WireChannel) : Channel := BitVec.ofNat 5 (c.toNat + 1)

/-- The low seven bits of a byte (30_encoding.md R63). -/
def Sys2Proof.Claims.seven (b : Byte) : Data7 := BitVec.ofNat 7 b.toNat

open Sys2Proof.Claims

/-! ### Encoding -/

/-- Frames of every family, written out from the examples of 42_channel_3byte.md, 43_channel_2byte.md, 44_sysex.md and
45_unrecognized.md, decode to the instruction they stand for. -/
def Obligations.WrittenFramesDecode : Prop :=
  decode [0x84, 0x0A, 0x64] = .instr (.noteOff 4 10 100) [] ∧
  decode [0x93, 0x3C, 0x00] = .instr (.noteOn 3 60 0) [] ∧
  decode [0xAF, 0x7F, 0x01] = .instr (.polyAt 15 127 1) [] ∧
  decode [0xB1, 0x07, 0x7F] = .instr (.ctrlChange 1 7 127) [] ∧
  decode [0xC9, 0x00] = .instr (.progChange 9 0) [] ∧
  decode [0xD0, 0x40, 0x7F] = .instr (.chanAt 0 64) [0x7F] ∧
  decode [0xE0, 0x00, 0x40] = .instr (.pitchBend 0 0 64) [] ∧
  decode [0xF0, 0x2B, 0xFF, 0x00, 0x7F, 0x36, 0xF7] = .instr (.sysex 43 [255, 0, 127, 54]) [] ∧
  decode [0xF0, 0xF7, 0x01, 0xF7] = .instr (.sysex 0xF7 [1]) [] ∧
  decode [0x40, 0xB2, 0x07] = .instr (.unrecData 0x40 0xB2 0x07) [] ∧
  decode [0xF1, 0x90] = .instr .unrecF1 [0x90] ∧
  decode [0xF3] = .instr (.unrecF2F3 1) [] ∧
  decode [0xF6] = .instr (.unrecF4F7 2) [] ∧
  decode [0xFF] = .instr (.unrecF8FF 7) []

/-- 30_encoding.md R76: "a byte `b` selects the row when `b & mask = match`", the rows are disjoint and cover all 256
values; and the instruction decoded belongs to the row its first byte selects. -/
def Obligations.EveryFirstByteSelectsOneRow : Prop :=
  opcodeTable.length = 13 ∧
  ∀ b : Byte, ∃ r ∈ opcodeTable, b &&& r.mask = r.pattern ∧
    (∀ r' ∈ opcodeTable, b &&& r'.mask = r'.pattern → r' = r) ∧
    ∀ bs i rest, decode (b :: bs) = .instr i rest → i.opcode = r.op

/-- Decode and encode agree: no bit of an encoding is dropped, and the bytes after the frame are left alone. -/
def Obligations.DecodeOfEncode : Prop :=
  ∀ (i : Instr) (rest : List Byte), i.wf = true → decode (encode i ++ rest) = .instr i rest

/-- The other direction: the bytes the decoder takes are exactly the frame of the instruction it gives, which is well
formed. -/
def Obligations.EncodeOfDecode : Prop :=
  ∀ (bs rest : List Byte) (i : Instr), decode bs = .instr i rest → i.wf = true ∧ encode i ++ rest = bs

/-- 30_encoding.md R69, every first byte has a defined treatment: the decoder rejects bytes only when their frame is
not complete, so a rejected sequence can always be continued to a frame. -/
def Obligations.OnlyIncompleteFramesAreRejected : Prop :=
  ∀ (bs : List Byte) (e : DecodeError), decode bs = .reject e → ∃ more i, decode (bs ++ more) = .instr i []

/-- 41_rx_framer.md R118, the bytes after the status byte by class of `status`: 1 for 0xC0 to 0xDF, 2 for 0x00 to 0xBF
and 0xE0 to 0xEF, none for 0xF1 to 0xFF; for 0xF0 an id byte, then bytes up to and including the first 0xF7. -/
def Obligations.FrameLengthByFirstByte : Prop :=
  ∀ (st : Byte) (bs rest : List Byte) (i : Instr), decode (st :: bs) = .instr i rest →
    (0xC0 ≤ st.toNat ∧ st.toNat ≤ 0xDF → bs.length = rest.length + 1) ∧
    (st.toNat ≤ 0xBF ∨ 0xE0 ≤ st.toNat ∧ st.toNat ≤ 0xEF → bs.length = rest.length + 2) ∧
    (0xF1 ≤ st.toNat → bs = rest) ∧
    (st = 0xF0 → ∃ id data, i = .sysex id data ∧ bs = id :: data ++ 0xF7 :: rest ∧ (0xF7 : Byte) ∉ data)

/-- 40_message_model.md R88: the status byte of a valid message, as a number; it is always in [0x80, 0xF0]. -/
def Obligations.StatusByteOfMessage : Prop :=
  ∀ m : Message, m.valid = true → 0x80 ≤ m.statusByte.toNat ∧ m.statusByte.toNat ≤ 0xF0 ∧
    match m with
    | .noteOff ch _ _ => m.statusByte.toNat = 16 * 0x8 + (ch.toNat - 1)
    | .noteOn ch _ _ => m.statusByte.toNat = 16 * 0x9 + (ch.toNat - 1)
    | .polyphonicAftertouch ch _ _ => m.statusByte.toNat = 16 * 0xA + (ch.toNat - 1)
    | .controlChange ch _ _ => m.statusByte.toNat = 16 * 0xB + (ch.toNat - 1)
    | .programChange ch _ => m.statusByte.toNat = 16 * 0xC + (ch.toNat - 1)
    | .channelAftertouch ch _ => m.statusByte.toNat = 16 * 0xD + (ch.toNat - 1)
    | .pitchBend ch _ _ => m.statusByte.toNat = 16 * 0xE + (ch.toNat - 1)
    | .sysEx _ _ => m.statusByte = 0xF0

/-- 40_message_model.md R89: `content(m)` of each kind, as numbers; `p - 1` for ProgramChange is in [0,127]. -/
def Obligations.ContentOfMessage : Prop :=
  ∀ m : Message, m.valid = true →
    match m with
    | .noteOff _ n v => m.content.map BitVec.toNat = [m.statusByte.toNat, n.toNat, v.toNat]
    | .noteOn _ n v => m.content.map BitVec.toNat = [m.statusByte.toNat, n.toNat, v.toNat]
    | .polyphonicAftertouch _ n p => m.content.map BitVec.toNat = [m.statusByte.toNat, n.toNat, p.toNat]
    | .controlChange _ k v => m.content.map BitVec.toNat = [m.statusByte.toNat, k.toNat, v.toNat]
    | .programChange _ p => m.content.map BitVec.toNat = [m.statusByte.toNat, p.toNat - 1] ∧ p.toNat - 1 ≤ 127
    | .channelAftertouch _ p => m.content.map BitVec.toNat = [m.statusByte.toNat, p.toNat]
    | .pitchBend _ l h => m.content.map BitVec.toNat = [m.statusByte.toNat, l.toNat, h.toNat]
    | .sysEx id data => m.content.map BitVec.toNat = [0xF0, id.toNat] ++ data.map BitVec.toNat ++ [0xF7]

/-- 40_message_model.md R93: the wire byte of a ProgramChange is `program_number - 1`, and decoding it yields
`program_number` unchanged (read here in omni mode, where every message is delivered). -/
def Obligations.ProgramNumberRoundTrip : Prop :=
  ∀ (ch : Channel) (p : Byte) (s : State), 1 ≤ ch.toNat → ch.toNat ≤ 16 → 1 ≤ p.toNat → p.toNat ≤ 128 →
    s.filter.omni = true →
    ∃ c w, (Message.programChange ch p).content = encode (.progChange c w) ∧ w.toNat = p.toNat - 1 ∧
      ∃ t, exec (.progChange c w) s = .next t ∧ t.result.msg = some (.programChange ch p)

/-! ### Receiving: the effect of each frame -/

/-- NOTE_OFF (42_channel_3byte.md R130, receive): the next state, whole. -/
def Obligations.NoteOffReceived : Prop :=
  ∀ (c : WireChannel) (n v : Byte) (s : State),
    exec (.noteOff c n v) s = .next { s with
      status := statusByte 0x8 c, data1 := n, data2 := v, phase := .done,
      result := twoFieldResult s.filter (statusByte 0x8 c) n v (.noteOff (channel c) (seven n) (seven v)) }

/-- NOTE_ON (42_channel_3byte.md R131, R132, receive): velocity 0 is delivered as NoteOff with the same channel and note
and velocity 0. -/
def Obligations.NoteOnReceived : Prop :=
  ∀ (c : WireChannel) (n v : Byte) (s : State),
    exec (.noteOn c n v) s = .next { s with
      status := statusByte 0x9 c, data1 := n, data2 := v, phase := .done,
      result := twoFieldResult s.filter (statusByte 0x9 c) n v
        (if v.toNat = 0 then .noteOff (channel c) (seven n) 0 else .noteOn (channel c) (seven n) (seven v)) }

/-- POLY_AT, CTRL_CHANGE and PITCH_BEND (42_channel_3byte.md R133, R134, R135, receive). -/
def Obligations.OtherThreeByteKindsReceived : Prop :=
  ∀ (c : WireChannel) (d1 d2 : Byte) (s : State),
    exec (.polyAt c d1 d2) s = .next { s with
      status := statusByte 0xA c, data1 := d1, data2 := d2, phase := .done,
      result := twoFieldResult s.filter (statusByte 0xA c) d1 d2
        (.polyphonicAftertouch (channel c) (seven d1) (seven d2)) } ∧
    exec (.ctrlChange c d1 d2) s = .next { s with
      status := statusByte 0xB c, data1 := d1, data2 := d2, phase := .done,
      result := twoFieldResult s.filter (statusByte 0xB c) d1 d2 (.controlChange (channel c) (seven d1) (seven d2)) } ∧
    exec (.pitchBend c d1 d2) s = .next { s with
      status := statusByte 0xE c, data1 := d1, data2 := d2, phase := .done,
      result := twoFieldResult s.filter (statusByte 0xE c) d1 d2 (.pitchBend (channel c) (seven d1) (seven d2)) }

/-- PROG_CHANGE and CHAN_AT (43_channel_2byte.md R150, R151, receive): `data2` is not written; `program_number` is the
wire byte plus 1. -/
def Obligations.TwoByteKindsReceived : Prop :=
  ∀ (c : WireChannel) (d1 : Byte) (s : State),
    exec (.progChange c d1) s = .next { s with
      status := statusByte 0xC c, data1 := d1, phase := .done,
      result := oneFieldResult s.filter (statusByte 0xC c) d1
        (.programChange (channel c) (BitVec.ofNat 8 (d1.toNat + 1))) } ∧
    exec (.chanAt c d1) s = .next { s with
      status := statusByte 0xD c, data1 := d1, phase := .done,
      result := oneFieldResult s.filter (statusByte 0xD c) d1 (.channelAftertouch (channel c) (seven d1)) }

/-- SYSEX (44_sysex.md R163): the id is checked first, then that there is data; no filter; it is run in the step
that consumes the 0xF7. -/
def Obligations.SysExReceived : Prop :=
  (∀ (id : Byte) (data : List Byte) (s : State),
    exec (.sysex id data) s = .next { s with
      status := 0xF0, data1 := id, sxBuf := data, phase := .done,
      result :=
        if id.toNat > 127 then ⟨.error, .invalidField, 1, .noCause, 0xF0, none⟩
        else if data.length = 0 then ⟨.error, .invalidField, 2, .noCause, 0xF0, none⟩
        else ⟨.message, .noCause, 0, .noCause, 0, some (.sysEx (seven id) data)⟩ }) ∧
  ∀ (s : State) (rest : List Event), s.phase = .sysExAccumulate → s.status = 0xF0 → s.inputs = .byte 0xF7 :: rest →
    step s = exec (.sysex s.data1 s.sxBuf) { s with inputs := rest }

/-- UNREC_DATA (45_unrecognized.md R170): `UnrecognizedStatus` with the first byte, whatever the two bytes after it are
and whatever the filter is. -/
def Obligations.UnrecognizedDataReceived : Prop :=
  ∀ (x : Data7) (b1 b2 : Byte) (s : State),
    exec (.unrecData x b1 b2) s = .next { s with
      status := BitVec.ofNat 8 x.toNat, data1 := b1, data2 := b2, phase := .done,
      result := ⟨.error, .unrecognizedStatus, 0, .noCause, BitVec.ofNat 8 x.toNat, none⟩ }

/-- UNREC_F1, UNREC_F2_F3, UNREC_F4_F7, UNREC_F8_FF (45_unrecognized.md R171): `UnrecognizedStatus` with the byte; only
`status`, `result` and `phase` are written. -/
def Obligations.UnrecognizedSystemByteReceived : Prop :=
  ∀ s : State,
    let refusedAt : Byte → State := fun st => { s with
      status := st, phase := .done, result := ⟨.error, .unrecognizedStatus, 0, .noCause, st, none⟩ }
    exec .unrecF1 s = .next (refusedAt 0xF1) ∧
    (∀ x : BitVec 1, exec (.unrecF2F3 x) s = .next (refusedAt (BitVec.ofNat 8 (0xF2 + x.toNat)))) ∧
    (∀ x : BitVec 2, exec (.unrecF4F7 x) s = .next (refusedAt (BitVec.ofNat 8 (0xF4 + x.toNat)))) ∧
    (∀ x : BitVec 3, exec (.unrecF8FF x) s = .next (refusedAt (BitVec.ofNat 8 (0xF8 + x.toNat))))

/-- Every frame of every row ends its read operation with an outcome (60_exceptions.md R200), and leaves alone the
filter, the TX unit, the sink, the parameters, the events to come, and each latch that its class does not fill
(10_state.md R10 to R16; 43_channel_2byte.md). -/
def Obligations.EveryFrameEndsTheReadAndKeepsTheRest : Prop :=
  ∀ (i : Instr) (s : State), ∃ t, exec i s = .next t ∧
    t.phase = .done ∧ t.result.outcome ≠ .noOutcome ∧
    t.filter = s.filter ∧ t.txQueue = s.txQueue ∧ t.txCount = s.txCount ∧ t.txResult = s.txResult ∧
    t.params = s.params ∧ t.inputs = s.inputs ∧ t.sink = s.sink ∧
    (i.opcode ≠ .sysex → t.sxBuf = s.sxBuf) ∧
    (i.opcode = .sysex ∨ i.opcode = .progChange ∨ i.opcode = .chanAt → t.data2 = s.data2) ∧
    (i.opcode = .unrecF1 ∨ i.opcode = .unrecF2F3 ∨ i.opcode = .unrecF4F7 ∨ i.opcode = .unrecF8FF →
      t.data1 = s.data1 ∧ t.data2 = s.data2)

/-- 41_rx_framer.md R111: a legal channel message is delivered exactly when the filter is omni or names its channel,
else the read ends in `NoMessage(ChannelFiltered)`; SysEx is always delivered; the filter never changes what is left
to read. -/
def Obligations.FilterDecidesDelivery : Prop :=
  ∀ (i : Instr) (s : State), i.legal = true → ∃ t, exec i s = .next t ∧ t.inputs = s.inputs ∧
    ∀ st rest, encode i = st :: rest →
      (st = 0xF0 ∨ s.filter.omni = true ∨ st.toNat % 16 = s.filter.ch.toNat → t.result.outcome = .message) ∧
      (st ≠ 0xF0 ∧ s.filter.omni = false ∧ st.toNat % 16 ≠ s.filter.ch.toNat →
        t.result = ⟨.noMessage, .channelFiltered, 0, .noCause, st, none⟩)

/-- 41_rx_framer.md R113: an ill-formed frame ends in its error under every filter. -/
def Obligations.ErrorOutranksTheFilter : Prop :=
  ∀ (i : Instr) (s : State) (f : Filter), i.wf = true → i.legal = false →
    ∃ t u, exec i s = .next t ∧ exec i { s with filter := f } = .next u ∧
      t.result = u.result ∧ t.result.outcome = .error

/-! ### Receiving: byte by byte -/

/-- 41_rx_framer.md R101: AwaitStatus and a byte. -/
def Obligations.StatusByteDispatch : Prop :=
  ∀ (s : State) (b : Byte) (rest : List Event), s.phase = .awaitStatus → s.inputs = .byte b :: rest →
    step s = .next
      (if b = 0xF0 then { s with inputs := rest, status := b, phase := .awaitData1 }
       else if b.toNat / 16 = 0xF then
        { s with inputs := rest, status := b, phase := .done,
                 result := ⟨.error, .unrecognizedStatus, 0, .noCause, b, none⟩ }
       else { s with inputs := rest, status := b, phase := .awaitData1 })

/-- 41_rx_framer.md R102: no byte at the first request is "no message", and nothing but `result` and `phase` changes. -/
def Obligations.NoFirstByteIsNoMessage : Prop :=
  ∀ (s : State) (rest : List Event), s.phase = .awaitStatus →
    (s.inputs = .timeout :: rest → step s = .next { s with
      inputs := rest, phase := .done, result := ⟨.noMessage, .streamTimeout, 0, .noCause, 0, none⟩ }) ∧
    (s.inputs = .ended :: rest → step s = .next { s with
      inputs := rest, phase := .done, result := ⟨.noMessage, .streamEnded, 0, .noCause, 0, none⟩ })

/-- 41_rx_framer.md R104 and R106, the arity router: the byte is latched whatever its value, and either the frame is
complete (`complete`, R107) or the next byte is awaited. -/
def Obligations.DataByteRouting : Prop :=
  ∀ (s : State) (b : Byte) (rest : List Event), s.inputs = .byte b :: rest →
    (s.phase = .awaitData1 → step s =
      (if s.status = 0xF0 then .next { s with inputs := rest, data1 := b, phase := .sysExAccumulate }
       else if s.status.toNat / 16 = 0xC ∨ s.status.toNat / 16 = 0xD then complete { s with inputs := rest, data1 := b }
       else .next { s with inputs := rest, data1 := b, phase := .awaitData2 })) ∧
    (s.phase = .awaitData2 → step s = complete { s with inputs := rest, data2 := b })

/-- 41_rx_framer.md R107, `Complete`, as its pseudocode says it over the latches, for every first byte that can stand
there (0xF1 to 0xFF are refused at the status byte, R101); and it is run in the same step as the last byte of the frame. -/
def Obligations.CompletionAlgorithm : Prop :=
  (∀ s : State, s.status = 0xF0 ∨ s.status.toNat / 16 ≠ 0xF →
    complete s = .next { s with phase := .done, result :=
      let st := s.status
      let n := st.toNat / 16
      let ch : Channel := BitVec.ofNat 5 (st.toNat % 16 + 1)
      if st = 0xF0 then
        if s.data1.toNat > 127 then ⟨.error, .invalidField, 1, .noCause, st, none⟩
        else if s.sxBuf.length = 0 then ⟨.error, .invalidField, 2, .noCause, st, none⟩
        else ⟨.message, .noCause, 0, .noCause, 0, some (.sysEx (seven s.data1) s.sxBuf)⟩
      else if n < 8 then ⟨.error, .unrecognizedStatus, 0, .noCause, st, none⟩
      else if s.data1.toNat > 127 then ⟨.error, .invalidField, 1, .noCause, st, none⟩
      else if n ≠ 0xC ∧ n ≠ 0xD ∧ s.data2.toNat > 127 then ⟨.error, .invalidField, 2, .noCause, st, none⟩
      else if s.filter.omni = false ∧ ch ≠ BitVec.ofNat 5 (s.filter.ch.toNat + 1) then
        ⟨.noMessage, .channelFiltered, 0, .noCause, st, none⟩
      else ⟨.message, .noCause, 0, .noCause, 0, some
        (if n = 0x8 then .noteOff ch (seven s.data1) (seven s.data2)
         else if n = 0x9 then
          (if s.data2.toNat = 0 then .noteOff ch (seven s.data1) 0 else .noteOn ch (seven s.data1) (seven s.data2))
         else if n = 0xA then .polyphonicAftertouch ch (seven s.data1) (seven s.data2)
         else if n = 0xB then .controlChange ch (seven s.data1) (seven s.data2)
         else if n = 0xC then .programChange ch (BitVec.ofNat 8 (s.data1.toNat + 1))
         else if n = 0xD then .channelAftertouch ch (seven s.data1)
         else .pitchBend ch (seven s.data1) (seven s.data2))⟩ }) ∧
  ∀ (s : State) (b : Byte) (rest : List Event), s.inputs = .byte b :: rest →
    (s.phase = .awaitData1 → s.status.toNat / 16 = 0xC ∨ s.status.toNat / 16 = 0xD →
      step s = complete { s with inputs := rest, data1 := b }) ∧
    (s.phase = .awaitData2 → step s = complete { s with inputs := rest, data2 := b }) ∧
    (s.phase = .sysExAccumulate → b = 0xF7 → step s = complete { s with inputs := rest })

/-- 41_rx_framer.md R105: a cut after the first byte is `PartialMessage`, whatever `status` is. -/
def Obligations.CutMessageIsPartial : Prop :=
  ∀ (s : State) (rest : List Event),
    s.phase = .awaitData1 ∨ s.phase = .awaitData2 ∨ s.phase = .sysExAccumulate →
    (s.inputs = .timeout :: rest → step s = .next { s with
      inputs := rest, phase := .done, result := ⟨.error, .partialMessage, 0, .streamTimeout, s.status, none⟩ }) ∧
    (s.inputs = .ended :: rest → step s = .next { s with
      inputs := rest, phase := .done, result := ⟨.error, .partialMessage, 0, .streamEnded, s.status, none⟩ })

/-- 44_sysex.md R162: in SysExAccumulate 0xF7 completes, any other byte overflows a full buffer or is appended. That
`info_status` is 0xF0 after SysExOverflow is the model's reading of R162 and 60_exceptions.md R201 against the "else 0"
of 10_state.md R17 (DEDUCED, log 17). -/
def Obligations.SysExByteLoop : Prop :=
  ∀ (s : State) (b : Byte) (rest : List Event), s.phase = .sysExAccumulate → s.inputs = .byte b :: rest →
    step s =
      if b = 0xF7 then complete { s with inputs := rest }
      else if s.params.sysexCap = some s.sxBuf.length then .next { s with
        inputs := rest, phase := .done, result := ⟨.error, .sysExOverflow, 0, .noCause, 0xF0, none⟩ }
      else .next { s with inputs := rest, sxBuf := s.sxBuf ++ [b] }

/-- 41_rx_framer.md R100: `ReadStart(f)` in Idle or Done opens a read operation; the latches are not cleared. -/
def Obligations.ReadStartOpensARead : Prop :=
  ∀ (s : State) (f : Filter) (rest : List Event), s.phase = .idle ∨ s.phase = .done →
    s.inputs = .readStart f :: rest →
    step s = .next { s with
      inputs := rest, filter := f, sxBuf := [], phase := .awaitStatus,
      result := ⟨.noOutcome, .noCause, 0, .noCause, 0, none⟩ }

/-- 10_state.md R31, acceptance: an accepted event has a step, any other has none and is refused by name (the refusal is
the model's form of "no step", log 5). -/
def Obligations.ExactlyTheAcceptedEventsStep : Prop :=
  ∀ (s : State) (e : Event) (rest : List Event), s.inputs = e :: rest →
    let awaiting := s.phase = .awaitStatus ∨ s.phase = .awaitData1 ∨ s.phase = .awaitData2 ∨ s.phase = .sysExAccumulate
    let accepted : Prop := match e with
      | .reset => True
      | .readStart _ => s.phase = .idle ∨ s.phase = .done
      | .byte _ => awaiting
      | .timeout => awaiting
      | .ended => awaiting
      | .send _ _ => s.txQueue = []
      | .sinkTake => s.txQueue ≠ []
    (accepted → ∃ t, step s = .next t) ∧ (¬accepted → step s = .refused (.eventNotAccepted e))

/-- The model's choice of log 4, after 70_reset_and_hazards.md R240 and R246: with no event to come the block waits. -/
def Obligations.WaitingChangesNothing : Prop :=
  ∀ s : State, s.inputs = [] → ∀ k, run k s = .next s

/-- A step runs the decoded instruction: when the bytes taken so far and the byte that comes are the frame of `i`, the
step is `exec i` on the state whose event is taken; nothing else is added around it. -/
def Obligations.StepRunsTheDecodedInstruction : Prop :=
  ∀ (s : State) (b : Byte) (rest : List Event) (i : Instr), RxInv s → s.phase.awaits = true →
    s.inputs = .byte b :: rest → decode (frameSoFar s ++ [b]) = .instr i [] →
    step s = exec i { s with inputs := rest }

/-- While the frame is not complete a byte is only kept: it is added to the bytes taken, and nothing but the latches and
`phase` changes (41_rx_framer.md R101, R104; 44_sysex.md R162), unless the SysEx buffer is full. -/
def Obligations.StepKeepsAnUnfinishedFrame : Prop :=
  ∀ (s : State) (b : Byte) (rest : List Event) (e : DecodeError), RxInv s → s.phase.awaits = true →
    s.inputs = .byte b :: rest → decode (frameSoFar s ++ [b]) = .reject e →
    (s.phase = .sysExAccumulate → s.params.sysexCap ≠ some s.sxBuf.length) →
    ∃ t, step s = .next t ∧ frameSoFar t = frameSoFar s ++ [b] ∧ t.phase.awaits = true ∧
      t = { s with inputs := rest, status := t.status, data1 := t.data1, sxBuf := t.sxBuf, phase := t.phase }

/-- Refinement: reading a whole frame, one byte a step, is its instruction's effect in one piece (41_rx_framer.md R101 to
R107). The buffer must hold the data of a SysEx frame. -/
def Obligations.ReadingAFrameRunsItsInstruction : Prop :=
  ∀ (i : Instr) (s : State) (rest : List Event), i.wf = true → s.phase = .awaitStatus → s.sxBuf = [] →
    s.inputs = (encode i).map .byte ++ rest →
    (∀ id data cap, i = .sysex id data → s.params.sysexCap = some cap → data.length ≤ cap) →
    run (encode i).length s = exec i { s with inputs := rest }

/-- 40_message_model.md R92, the round-trip law: feeding `content(m)` to the framer in omni mode delivers `m`, except that
a NoteOn with velocity 0 comes back as the NoteOff with the same fields. Exactly the bytes of `m` are consumed. -/
def Obligations.ReceivingContentDeliversTheMessage : Prop :=
  ∀ (m : Message) (s : State) (rest : List Event), m.valid = true → s.phase = .awaitStatus → s.sxBuf = [] →
    s.filter.omni = true → s.inputs = m.content.map .byte ++ rest →
    (∀ id data cap, m = .sysEx id data → s.params.sysexCap = some cap → data.length ≤ cap) →
    ∃ t, run m.content.length s = .next t ∧ t.phase = .done ∧ t.inputs = rest ∧
      t.result = ⟨.message, .noCause, 0, .noCause, 0, some
        (match m with
         | .noteOn ch n v => if v = 0 then .noteOff ch n 0 else .noteOn ch n v
         | m => m)⟩

/-- 40_message_model.md R92, the other direction: the content of a delivered message is the frame it came from, unless
the re-tag was made. -/
def Obligations.DeliveredMessageHasTheContentRead : Prop :=
  ∀ (i : Instr) (s t : State) (m : Message), exec i s = .next t → t.result.msg = some m →
    t.result.outcome = .message → (∀ c n, i ≠ .noteOn c n 0) → m.content = encode i

/-- 44_sysex.md R162 and 70_reset_and_hazards.md R241: with an unbounded buffer the SysEx loop takes any number of bytes
other than 0xF7, status-like ones included, and stays where it is. -/
def Obligations.SysExLoopCollectsEveryByte : Prop :=
  ∀ (body : List Byte) (s : State) (rest : List Event), (0xF7 : Byte) ∉ body → s.phase = .sysExAccumulate →
    s.params.sysexCap = none → s.inputs = body.map .byte ++ rest →
    run body.length s = .next { s with inputs := rest, sxBuf := s.sxBuf ++ body }

/-- 70_reset_and_hazards.md R238, 45_unrecognized.md R170: a stray data byte taken as a status byte costs the two bytes
after it too, whatever they are. -/
def Obligations.StrayDataByteCostsThree : Prop :=
  ∀ (b b1 b2 : Byte) (s : State) (rest : List Event), b.toNat ≤ 127 → s.phase = .awaitStatus →
    s.inputs = .byte b :: .byte b1 :: .byte b2 :: rest →
    run 3 s = .next { s with
      inputs := rest, status := b, data1 := b1, data2 := b2, phase := .done,
      result := ⟨.error, .unrecognizedStatus, 0, .noCause, b, none⟩ }

/-! ### Sending -/

/-- 46_tx_serializer.md R182, R183: the outcome of `Validate`, in its order: fields before channel. -/
def Obligations.ValidationOrder : Prop :=
  ∀ c : Command,
    let twoFields := c.kind ≠ .programChange ∧ c.kind ≠ .channelAftertouch ∧ c.kind ≠ .sysEx
    let bad1 := if c.kind = .programChange then c.f1.toNat < 1 ∨ c.f1.toNat > 128 else c.f1.toNat > 127
    let bad2 := (twoFields ∧ c.f2.toNat > 127) ∨ (c.kind = .sysEx ∧ (c.data.length = 0 ∨ (0xF7 : Byte) ∈ c.data))
    let badChannel := c.kind ≠ .sysEx ∧ (c.channel.toNat < 1 ∨ c.channel.toNat > 16)
    (bad1 → validate c = .invalidField 1) ∧
    (¬bad1 ∧ bad2 → validate c = .invalidField 2) ∧
    (¬bad1 ∧ ¬bad2 ∧ badChannel → validate c = .invalidChannel) ∧
    (¬bad1 ∧ ¬bad2 ∧ ¬badChannel → ∃ m, validate c = .message m ∧ m.valid = true ∧ m.tag = c.kind ∧
      (c.kind ≠ .sysEx → m.channel? = some (BitVec.ofNat 5 c.channel.toNat)))

/-- 46_tx_serializer.md R180, R182, R185, R187: the bytes of a plain send, from the fields of the command. -/
def Obligations.PlainSendBytes : Prop :=
  ∀ (c : Command) (m : Message), validate c = .message m →
    (outBytes m false).map BitVec.toNat =
      match c.kind with
      | .noteOff => [0x80 + (c.channel.toNat - 1), c.f1.toNat, c.f2.toNat]
      | .noteOn => [0x90 + (c.channel.toNat - 1), c.f1.toNat, c.f2.toNat]
      | .polyphonicAftertouch => [0xA0 + (c.channel.toNat - 1), c.f1.toNat, c.f2.toNat]
      | .controlChange => [0xB0 + (c.channel.toNat - 1), c.f1.toNat, c.f2.toNat]
      | .programChange => [0xC0 + (c.channel.toNat - 1), c.f1.toNat - 1]
      | .channelAftertouch => [0xD0 + (c.channel.toNat - 1), c.f1.toNat]
      | .pitchBend => [0xE0 + (c.channel.toNat - 1), c.f1.toNat, c.f2.toNat]
      | .sysEx => [0xF0, c.f1.toNat] ++ c.data.map BitVec.toNat ++ [0xF7]

/-- 46_tx_serializer.md R186, R187 (ascending order: the spec's decision D14): a broadcast repeats the frame once per
channel, only the low nibble of the status byte varying from 0 to 15, the data bytes fixed; it has no effect on SysEx.
-/
def Obligations.BroadcastRepeatsTheFrame : Prop :=
  ∀ m : Message,
    (m.tag = .sysEx → outBytes m true = outBytes m false) ∧
    (m.tag ≠ .sysEx → outBytes m true =
      (List.range 16).flatMap (fun k => BitVec.ofNat 8 (16 * (m.tag.code.toNat + 8) + k) :: (outBytes m false).drop 1))

/-- 46_tx_serializer.md R189, the number of bytes of a send: 3 or 2, sixteen times that in a broadcast, `n + 3` for
SysEx. -/
def Obligations.SendLengths : Prop :=
  ∀ (m : Message) (bcast : Bool), (outBytes m bcast).length =
    match m with
    | .sysEx _ data => data.length + 3
    | .programChange _ _ => if bcast then 32 else 2
    | .channelAftertouch _ _ => if bcast then 32 else 2
    | _ => if bcast then 48 else 3

/-- 46_tx_serializer.md R181, R184: an accepted, valid command clears count and outcome and loads the queue with the
whole byte sequence; nothing is written to the sink yet. -/
def Obligations.ValidSendLoadsTheQueue : Prop :=
  ∀ (s : State) (c : Command) (m : Message) (bcast : Bool) (rest : List Event), s.txQueue = [] →
    s.inputs = .send c bcast :: rest → validate c = .message m →
    step s = .next { s with
      inputs := rest, txQueue := outBytes m bcast, txCount := 0, txResult := ⟨.noOutcome, .noCause, 0, 0⟩ }

/-- 46_tx_serializer.md R191: a send operation that fails validation writes nothing and reports its cause, count 0. -/
def Obligations.InvalidSendWritesNothing : Prop :=
  ∀ (s : State) (c : Command) (bcast : Bool) (rest : List Event), s.txQueue = [] → s.inputs = .send c bcast :: rest →
    (∀ k, validate c = .invalidField k → step s = .next { s with
      inputs := rest, txQueue := [], txCount := 0, txResult := ⟨.error, .invalidField, k, 0⟩ }) ∧
    (validate c = .invalidChannel → step s = .next { s with
      inputs := rest, txQueue := [], txCount := 0, txResult := ⟨.error, .invalidChannel, 0, 0⟩ })

/-- 46_tx_serializer.md R188: one `SinkTake`, with `tx_count` a natural number (`COUNT_W` unbounded, R4) or wrapping
modulo `2^COUNT_W` (40_message_model.md R95). -/
def Obligations.SinkTakesTheHead : Prop :=
  ∀ (s : State) (b : Byte) (queued : List Byte) (rest : List Event), s.txQueue = b :: queued →
    s.inputs = .sinkTake :: rest →
    let n := match s.params.countWidth with
      | none => s.txCount + 1
      | some w => (s.txCount + 1) % 2 ^ w
    step s = .next { s with
      inputs := rest, sink := s.sink ++ [b], txQueue := queued, txCount := n,
      txResult := if queued = [] then ⟨.sent, .noCause, 0, n⟩ else s.txResult }

/-- 46_tx_serializer.md R192: a whole send operation. The sink receives exactly `Out(m, bcast)`, in order, and the
outcome is `Sent` with its length, a natural number unless the block has a finite `COUNT_W` (40_message_model.md R95).
-/
def Obligations.SendDeliversTheWholeSequence : Prop :=
  ∀ (s : State) (c : Command) (m : Message) (bcast : Bool) (rest : List Event), s.txQueue = [] →
    validate c = .message m →
    s.inputs = .send c bcast :: List.replicate (outBytes m bcast).length .sinkTake ++ rest →
    let n := match s.params.countWidth with
      | none => (outBytes m bcast).length
      | some w => (outBytes m bcast).length % 2 ^ w
    run ((outBytes m bcast).length + 1) s = .next { s with
      inputs := rest, sink := s.sink ++ outBytes m bcast, txQueue := [], txCount := n,
      txResult := ⟨.sent, .noCause, 0, n⟩ }

/-! ### Whole-machine rules -/

/-- 10_state.md R28 (the values the spec gives; those of `status`, `data1`, `data2` and `filter` are unspecified and not
stated here). -/
def Obligations.ResetStateValues : Prop :=
  State.reset.phase = .idle ∧ State.reset.sxBuf = [] ∧
  State.reset.result = ⟨.noOutcome, .noCause, 0, .noCause, 0, none⟩ ∧
  State.reset.txQueue = [] ∧ State.reset.txCount = 0 ∧ State.reset.txResult = ⟨.noOutcome, .noCause, 0, 0⟩ ∧
  State.reset.params = ⟨none, none⟩

/-- 10_state.md R28, 70_reset_and_hazards.md R230, R231: `Reset` is accepted in every state, gives the values of R28, and
touches neither the source nor the sink. -/
def Obligations.ResetFromEveryState : Prop :=
  ∀ (s : State) (rest : List Event), s.inputs = .reset :: rest → ∃ t, step s = .next t ∧
    t.phase = .idle ∧ t.sxBuf = [] ∧ t.result = ⟨.noOutcome, .noCause, 0, .noCause, 0, none⟩ ∧
    t.txQueue = [] ∧ t.txCount = 0 ∧ t.txResult = ⟨.noOutcome, .noCause, 0, 0⟩ ∧
    t.inputs = rest ∧ t.sink = s.sink ∧ t.params = s.params

/-- The invariant holds at reset. -/
def Obligations.ResetMeetsTheInvariant : Prop := Inv State.reset

/-- Every step keeps the invariant, from every state that meets it: the phases agree with `status` and with `result`, the
buffer keeps its bound and never holds 0xF7, both outcome records stay records of R17 and R23, a delivered message is
valid and never a NoteOn with velocity 0 (41_rx_framer.md R113). The record of SysExOverflow is the one of log 17
(DEDUCED). -/
def Obligations.EveryStepKeepsTheInvariant : Prop :=
  ∀ s t : State, Inv s → step s = .next t → Inv t

/-- 10_state.md R10, 20_memory.md R53: an event of one unit leaves every register of the other alone. -/
def Obligations.UnitsShareNoState : Prop :=
  ∀ (s t : State) (e : Event) (rest : List Event), s.inputs = e :: rest → step s = .next t →
    (e.isRx = true → t.txQueue = s.txQueue ∧ t.txCount = s.txCount ∧ t.txResult = s.txResult ∧ t.sink = s.sink) ∧
    (e.isTx = true → t.phase = s.phase ∧ t.status = s.status ∧ t.data1 = s.data1 ∧ t.data2 = s.data2 ∧
      t.sxBuf = s.sxBuf ∧ t.filter = s.filter ∧ t.result = s.result) ∧
    t.inputs = rest ∧ t.params = s.params

/-- 10_state.md R11, R12, R15, R16, R17: which event of which phase writes each RX register. -/
def Obligations.RegistersChangeOnlyWhereTheSpecSays : Prop :=
  ∀ (s t : State) (e : Event) (rest : List Event), s.inputs = e :: rest → step s = .next t → e ≠ .reset →
    (t.status ≠ s.status → s.phase = .awaitStatus ∧ ∃ b, e = .byte b ∧ t.status = b) ∧
    (t.data1 ≠ s.data1 → s.phase = .awaitData1 ∧ ∃ b, e = .byte b ∧ t.data1 = b) ∧
    (t.data2 ≠ s.data2 → s.phase = .awaitData2 ∧ ∃ b, e = .byte b ∧ t.data2 = b) ∧
    (t.sxBuf ≠ s.sxBuf → (∃ f, e = .readStart f ∧ t.sxBuf = []) ∨
      (s.phase = .sysExAccumulate ∧ ∃ b, e = .byte b ∧ t.sxBuf = s.sxBuf ++ [b])) ∧
    (t.filter ≠ s.filter → ∃ f, e = .readStart f ∧ t.filter = f) ∧
    (t.result ≠ s.result → (∃ f, e = .readStart f) ∨ (s.phase.awaits = true ∧ t.phase = .done))

/-- 10_state.md R14, 41_rx_framer.md R120, how `phase` advances, over every accepted event; in SysExAccumulate a full
buffer ends the read (44_sysex.md R162). -/
def Obligations.PhaseAdvances : Prop :=
  ∀ (s t : State) (e : Event) (rest : List Event), s.inputs = e :: rest → step s = .next t →
    match e with
    | .reset => t.phase = .idle
    | .readStart _ => t.phase = .awaitStatus
    | .timeout => t.phase = .done
    | .ended => t.phase = .done
    | .send _ _ => t.phase = s.phase
    | .sinkTake => t.phase = s.phase
    | .byte b =>
      (s.phase = .awaitStatus → t.phase = if 0xF1 ≤ b.toNat then .done else .awaitData1) ∧
      (s.phase = .awaitData1 → t.phase =
        if s.status = 0xF0 then .sysExAccumulate
        else if 0xC0 ≤ s.status.toNat ∧ s.status.toNat ≤ 0xDF then .done
        else .awaitData2) ∧
      (s.phase = .awaitData2 → t.phase = .done) ∧
      (s.phase = .sysExAccumulate → t.phase =
        if b = 0xF7 ∨ s.params.sysexCap = some s.sxBuf.length then .done else .sysExAccumulate)

/-- 60_exceptions.md R213, 10_state.md R12, 41_rx_framer.md R115: a read operation owes nothing to what came before it.
Two blocks that differ in every register of the framer, and in all of TX, give the same outcome to the same
`ReadStart` and the same answers. -/
def Obligations.ReadOwesNothingToTheOneBefore : Prop :=
  ∀ (s t : State) (f : Filter) (answers : List Event) (k : Nat) (s' : State),
    s.phase = .idle ∨ s.phase = .done → t.phase = .idle ∨ t.phase = .done → s.params.sysexCap = t.params.sysexCap →
    (∀ e ∈ answers, e.isAnswer = true) → s.inputs = .readStart f :: answers → t.inputs = .readStart f :: answers →
    run (k + 1) s = .next s' →
    ∃ t', run (k + 1) t = .next t' ∧ t'.phase = s'.phase ∧ t'.result = s'.result ∧ t'.inputs = s'.inputs

/-- The numeric codes of 10_state.md R13, R17, R19, R23 and 60_exceptions.md R201 (the spec's own choice, D3 and D7). -/
def Obligations.RegisterCodes : Prop :=
  [Phase.idle, .awaitStatus, .awaitData1, .awaitData2, .sysExAccumulate, .done].map (·.code.toNat) = [0, 1, 2, 3, 4, 5] ∧
  [Cause.noCause, .invalidField, .invalidChannel, .unrecognizedStatus, .streamTimeout, .streamEnded, .partialMessage,
    .channelFiltered, .sysExOverflow].map (·.code.toNat) = [0, 1, 2, 3, 4, 5, 6, 7, 8] ∧
  [RxOutcome.noOutcome, .message, .noMessage, .error].map (·.code.toNat) = [0, 1, 2, 3] ∧
  [TxOutcome.noOutcome, .sent, .error].map (·.code.toNat) = [0, 1, 3] ∧
  [KindTag.noteOff, .noteOn, .polyphonicAftertouch, .controlChange, .programChange, .channelAftertouch, .pitchBend,
    .sysEx].map (·.code.toNat) = [0, 1, 2, 3, 4, 5, 6, 7] ∧
  (∀ n : BitVec 3, (KindTag.ofCode n).code = n)

/-- 10_state.md R32, the outputs against R31: `rd_ready` is 1 exactly when a `ReadStart` steps, `rx_req` exactly when each
answer of the source does, `tx_ready` exactly when a `Send` does, `tx_byte_valid` exactly when a `SinkTake` does, and
`tx_byte` is the byte that the sink then gets. `accepts` is acceptance, for every event. -/
def Obligations.ReadyOutputsMatchAcceptance : Prop :=
  ∀ (s : State) (rest : List Event),
    let steps : Event → Prop := fun e => ∃ t, step { s with inputs := e :: rest } = .next t
    (∀ f, rdReady s = true ↔ steps (.readStart f)) ∧
    (∀ b, rxReq s = true ↔ steps (.byte b)) ∧ (rxReq s = true ↔ steps .timeout) ∧ (rxReq s = true ↔ steps .ended) ∧
    (∀ c bcast, txReady s = true ↔ steps (.send c bcast)) ∧
    (txByteValid s = true ↔ steps .sinkTake) ∧
    (∀ b, txByte s = some b ↔
      ∃ t, step { s with inputs := .sinkTake :: rest } = .next t ∧ t.sink = s.sink ++ [b]) ∧
    (∀ e, accepts e s = true ↔ steps e)

/-- 00_scope.md R5 and R9: a step is the block's own step function on the registers and the next event alone. Neither the
events after it nor what the sink has received plays a part; the bytes written are added to what the sink holds. -/
def Obligations.StepIsTheBlockStepOnTheNextEvent : Prop :=
  ∀ (s : State) (e : Event) (rest : List Event), s.inputs = e :: rest →
    step s =
      match blockStep s.params e s.toBlock with
      | .next (b, written) => .next { toBlock := b, params := s.params, inputs := rest, sink := s.sink ++ written }
      | .fault r => .fault r
      | .refused r => .refused r
end

