-- ==== Sys2Proof/Laws/Decode.lean ====
section
/-! SUPPORT. What the decoder's parts do: bit fields of a status byte, the opcode table, frame classes, the split of a
SysEx body, and the instruction that complete bytes stand for. -/

namespace Sys2Proof

/-! ### Bit fields -/

@[simp] theorem statusOf_split (b : Byte) : statusOf (typeNibble b) (wireChannel b) = b := by
  revert b; decide

@[simp] theorem wireChannel_statusOf (n : Nibble) (c : WireChannel) : wireChannel (statusOf n c) = c := by
  revert n c; decide

@[simp] theorem typeNibble_statusOf (n : Nibble) (c : WireChannel) : typeNibble (statusOf n c) = n := by
  revert n c; decide

@[simp] theorem low7_widen (d : Data7) : low7 (widen d) = d := by revert d; decide

theorem widen_low7 (b : Byte) : b ≤ 127 → widen (low7 b) = b := by revert b; decide

/-! ### The opcode table -/

/-- The rows cover every first byte, so `opcodeOf` is the opcode of a row it selects. -/
theorem opcodeOf_selects : ∀ b : Byte, ∃ r ∈ opcodeTable, r.selects b = true ∧ opcodeOf b = r.op := by decide

/-- Two rows that one byte selects are the same row. -/
theorem opcodeTable_disjoint : ∀ b : Byte, ∀ r ∈ opcodeTable, ∀ r' ∈ opcodeTable,
    r.selects b = true → r'.selects b = true → r = r' := by decide

/-- A first byte of each opcode, rebuilt from the free bits of `b`. -/
def Opcode.firstByte (b : Byte) : Opcode → Byte
  | .noteOff => statusOf 0x8 (wireChannel b)
  | .noteOn => statusOf 0x9 (wireChannel b)
  | .polyAt => statusOf 0xA (wireChannel b)
  | .ctrlChange => statusOf 0xB (wireChannel b)
  | .progChange => statusOf 0xC (wireChannel b)
  | .chanAt => statusOf 0xD (wireChannel b)
  | .pitchBend => statusOf 0xE (wireChannel b)
  | .sysex => sysexStart
  | .unrecData => widen (low7 b)
  | .unrecF1 => 0xF1
  | .unrecF2F3 => 0b1111001#7 ++ b.extractLsb' 0 1
  | .unrecF4F7 => 0b111101#6 ++ b.extractLsb' 0 2
  | .unrecF8FF => 0b11111#5 ++ b.extractLsb' 0 3

/-- A first byte is its opcode's fixed bits and its own free bits. -/
theorem firstByte_opcodeOf : ∀ b : Byte, (opcodeOf b).firstByte b = b := by decide

/-- The frame class of each opcode. -/
def Opcode.frameClass : Opcode → FrameClass
  | .noteOff | .noteOn | .polyAt | .ctrlChange | .pitchBend | .unrecData => .twoData
  | .progChange | .chanAt => .oneData
  | .sysex => .sysex
  | .unrecF1 | .unrecF2F3 | .unrecF4F7 | .unrecF8FF => .alone

theorem frameClass_eq (b : Byte) : frameClass b = (opcodeOf b).frameClass := by revert b; decide

@[simp] theorem instrOf_opcode (st d1 d2 : Byte) (data : List Byte) : (instrOf st d1 d2 data).opcode = opcodeOf st := by
  unfold instrOf; cases opcodeOf st <;> rfl

/-! ### SysEx bodies -/

theorem bodyOk_cons (b : Byte) (bs : List Byte) : bodyOk (b :: bs) = true ↔ b ≠ terminator ∧ bodyOk bs = true := by
  simp [bodyOk]

@[simp] theorem bodyOk_nil : bodyOk [] = true := rfl

theorem bodyOk_append (xs ys : List Byte) : bodyOk (xs ++ ys) = true ↔ bodyOk xs = true ∧ bodyOk ys = true := by
  simp [bodyOk]

theorem bodyOk_iff (bs : List Byte) : bodyOk bs = true ↔ terminator ∉ bs := by
  simp only [bodyOk, List.all_eq_true, bne_iff_ne, ne_eq]
  exact ⟨fun h hm => h _ hm rfl, fun h x hx e => h (e ▸ hx)⟩

/-- A body that holds no terminator is split at the one after it. -/
theorem splitBody_append (data rest : List Byte) (h : bodyOk data = true) :
    splitBody (data ++ terminator :: rest) = some (data, rest) := by
  induction data with
  | nil => simp [splitBody]
  | cons b bs ih =>
    obtain ⟨hb, hbs⟩ := (bodyOk_cons b bs).1 h
    simp [splitBody, hb, ih hbs]

/-- A split body is its data, the terminator and the rest, and the data holds no terminator. -/
theorem splitBody_some {bs data rest : List Byte} (h : splitBody bs = some (data, rest)) :
    bodyOk data = true ∧ bs = data ++ terminator :: rest := by
  induction bs generalizing data with
  | nil => simp [splitBody] at h
  | cons b bs ih =>
    unfold splitBody at h
    split at h
    · next hb => simp only [Option.some.injEq, Prod.mk.injEq] at h; obtain ⟨rfl, rfl⟩ := h; simp [hb]
    · next hb =>
      split at h
      · next d r hs =>
        simp only [Option.some.injEq, Prod.mk.injEq] at h
        obtain ⟨rfl, rfl⟩ := h
        obtain ⟨hd, rfl⟩ := ih hs
        exact ⟨(bodyOk_cons _ _).2 ⟨hb, hd⟩, rfl⟩
      · cases h

/-- A body that cannot be split holds no terminator. -/
theorem splitBody_none {bs : List Byte} (h : splitBody bs = none) : bodyOk bs = true := by
  induction bs with
  | nil => rfl
  | cons b bs ih =>
    unfold splitBody at h
    split at h
    · cases h
    · next hb =>
      split at h
      · cases h
      · next hs => exact (bodyOk_cons _ _).2 ⟨hb, ih hs⟩

/-! ### Instructions from complete bytes -/

/-- The instruction of complete bytes is well formed exactly when its SysEx data holds no terminator. -/
theorem instrOf_wf (st d1 d2 : Byte) (data : List Byte) (h : bodyOk data = true) : (instrOf st d1 d2 data).wf = true := by
  unfold instrOf; cases opcodeOf st <;> first | rfl | exact h

/-- The frame of the instruction that complete bytes stand for is those bytes, as many as the class has. -/
theorem encode_instrOf (st d1 d2 : Byte) (data : List Byte) :
    encode (instrOf st d1 d2 data) =
      match frameClass st with
      | .alone => [st]
      | .oneData => [st, d1]
      | .twoData => [st, d1, d2]
      | .sysex => st :: d1 :: (data ++ [terminator]) := by
  have inv := firstByte_opcodeOf st
  rw [frameClass_eq]
  unfold instrOf
  cases h : opcodeOf st <;> rw [h] at inv <;> simp only [encode, Opcode.frameClass] <;>
    simp only [Opcode.firstByte] at inv <;> rw [inv]

/-- Which of the bytes an instruction depends on: those its class has. -/
theorem instrOf_congr (st d1 d2 e1 e2 : Byte) (xs ys : List Byte)
    (h1 : frameClass st ≠ .alone → d1 = e1) (h2 : frameClass st = .twoData → d2 = e2)
    (h3 : frameClass st = .sysex → xs = ys) : instrOf st d1 d2 xs = instrOf st e1 e2 ys := by
  rw [frameClass_eq] at h1 h2 h3
  unfold instrOf
  cases h : opcodeOf st <;>
    simp only [h, Opcode.frameClass, ne_eq, reduceCtorEq, not_false_eq_true, not_true_eq_false, forall_const, false_implies]
      at h1 h2 h3 <;> simp only [h1, h2, h3]

/-- The first byte of a frame is of the opcode of its instruction. -/
theorem opcodeOf_encode {i : Instr} {st : Byte} {bs : List Byte} (h : encode i = st :: bs) : opcodeOf st = i.opcode := by
  have key : ∀ c : WireChannel,
      opcodeOf (statusOf 0x8 c) = .noteOff ∧ opcodeOf (statusOf 0x9 c) = .noteOn ∧ opcodeOf (statusOf 0xA c) = .polyAt ∧
      opcodeOf (statusOf 0xB c) = .ctrlChange ∧ opcodeOf (statusOf 0xC c) = .progChange ∧
      opcodeOf (statusOf 0xD c) = .chanAt ∧ opcodeOf (statusOf 0xE c) = .pitchBend := by decide
  have keyData : ∀ x : Data7, opcodeOf (widen x) = .unrecData := by decide
  have key1 : ∀ x : BitVec 1, opcodeOf (0b1111001#7 ++ x) = .unrecF2F3 := by decide
  have key2 : ∀ x : BitVec 2, opcodeOf (0b111101#6 ++ x) = .unrecF4F7 := by decide
  have key3 : ∀ x : BitVec 3, opcodeOf (0b11111#5 ++ x) = .unrecF8FF := by decide
  cases i <;> simp only [encode, List.cons.injEq] at h <;> obtain ⟨rfl, -⟩ := h
  case noteOff c _ _ => exact (key c).1
  case noteOn c _ _ => exact (key c).2.1
  case polyAt c _ _ => exact (key c).2.2.1
  case ctrlChange c _ _ => exact (key c).2.2.2.1
  case progChange c _ => exact (key c).2.2.2.2.1
  case chanAt c _ => exact (key c).2.2.2.2.2.1
  case pitchBend c _ _ => exact (key c).2.2.2.2.2.2
  case sysex _ _ => exact (by decide : opcodeOf sysexStart = .sysex)
  case unrecData x _ _ => exact keyData x
  case unrecF1 => exact (by decide : opcodeOf 0xF1 = .unrecF1)
  case unrecF2F3 x => exact key1 x
  case unrecF4F7 x => exact key2 x
  case unrecF8FF x => exact key3 x

/-- Complete bytes that are the frame of an instruction stand for that instruction; `d1`, `d2` and `data` are free
where its frame has no such bytes. -/
theorem instrOf_encode (i : Instr) (st d1 d2 : Byte) (data : List Byte)
    (h : encode i = match i.opcode.frameClass with
      | .alone => [st]
      | .oneData => [st, d1]
      | .twoData => [st, d1, d2]
      | .sysex => st :: d1 :: (data ++ [terminator])) : instrOf st d1 d2 data = i := by
  have free1 : ∀ x : BitVec 1, (0b1111001#7 ++ x).extractLsb' 0 1 = x := by decide
  have free2 : ∀ x : BitVec 2, (0b111101#6 ++ x).extractLsb' 0 2 = x := by decide
  have free3 : ∀ x : BitVec 3, (0b11111#5 ++ x).extractLsb' 0 3 = x := by decide
  have hop : opcodeOf st = i.opcode := by
    cases i <;> simp only [Instr.opcode, Opcode.frameClass] at h <;> exact opcodeOf_encode h
  unfold instrOf
  rw [hop]
  cases i <;> simp only [Instr.opcode, Opcode.frameClass, encode, List.cons.injEq, List.append_cancel_right_eq] at h ⊢
  case noteOff c _ _ | noteOn c _ _ | polyAt c _ _ | ctrlChange c _ _ | pitchBend c _ _ =>
    obtain ⟨rfl, rfl, rfl, -⟩ := h
    rw [wireChannel_statusOf]
  case progChange c _ | chanAt c _ =>
    obtain ⟨rfl, rfl, -⟩ := h
    rw [wireChannel_statusOf]
  case sysex => obtain ⟨rfl, rfl, rfl⟩ := h; rfl
  case unrecData x _ _ => obtain ⟨rfl, rfl, rfl, -⟩ := h; rw [low7_widen]
  case unrecF2F3 x => obtain ⟨rfl, -⟩ := h; rw [free1]
  case unrecF4F7 x => obtain ⟨rfl, -⟩ := h; rw [free2]
  case unrecF8FF x => obtain ⟨rfl, -⟩ := h; rw [free3]

/-- The shape of every frame: as many bytes as the class of its opcode has. -/
theorem encode_shape (i : Instr) : ∃ st d1 d2 data, encode i = match i.opcode.frameClass with
      | .alone => [st]
      | .oneData => [st, d1]
      | .twoData => [st, d1, d2]
      | .sysex => st :: d1 :: (data ++ [terminator]) := by
  cases i
  case noteOff c a b => exact ⟨_, a, b, [], rfl⟩
  case noteOn c a b => exact ⟨_, a, b, [], rfl⟩
  case polyAt c a b => exact ⟨_, a, b, [], rfl⟩
  case ctrlChange c a b => exact ⟨_, a, b, [], rfl⟩
  case progChange c a => exact ⟨_, a, 0, [], rfl⟩
  case chanAt c a => exact ⟨_, a, 0, [], rfl⟩
  case pitchBend c a b => exact ⟨_, a, b, [], rfl⟩
  case sysex id data => exact ⟨_, id, 0, data, rfl⟩
  case unrecData x a b => exact ⟨_, a, b, [], rfl⟩
  case unrecF1 => exact ⟨_, 0, 0, [], rfl⟩
  case unrecF2F3 x => exact ⟨_, 0, 0, [], rfl⟩
  case unrecF4F7 x => exact ⟨_, 0, 0, [], rfl⟩
  case unrecF8FF x => exact ⟨_, 0, 0, [], rfl⟩

/-- Inversion of the decoder: which class the first byte has, and what follows it. -/
theorem decode_instr {bs rest : List Byte} {i : Instr} (h : decode bs = .instr i rest) :
    (∃ st, bs = st :: rest ∧ frameClass st = .alone ∧ i = instrOf st 0 0 []) ∨
    (∃ st d1, bs = st :: d1 :: rest ∧ frameClass st = .oneData ∧ i = instrOf st d1 0 []) ∨
    (∃ st d1 d2, bs = st :: d1 :: d2 :: rest ∧ frameClass st = .twoData ∧ i = instrOf st d1 d2 []) ∨
    (∃ id data, bs = sysexStart :: id :: (data ++ terminator :: rest) ∧ bodyOk data = true ∧ i = .sysex id data) := by
  unfold decode at h
  split at h
  · cases h
  · next st bs =>
    split at h
    · next hc => cases h; exact .inl ⟨st, rfl, hc, rfl⟩
    · next hc =>
      split at h
      · cases h; exact .inr (.inl ⟨st, _, rfl, hc, rfl⟩)
      · cases h
    · next hc =>
      split at h
      · cases h; exact .inr (.inr (.inl ⟨st, _, _, rfl, hc, rfl⟩))
      · cases h
      · cases h
    · next hc =>
      have hst : ∀ b : Byte, frameClass b = .sysex → b = sysexStart := by decide
      have hop : opcodeOf sysexStart = .sysex := by decide
      cases hst st hc
      split at h
      · cases h
      · next id body =>
        split at h
        · next data r hs =>
          cases h
          obtain ⟨hd, rfl⟩ := splitBody_some hs
          exact .inr (.inr (.inr ⟨id, data, rfl, hd, by simp [instrOf, hop]⟩))
        · cases h

end Sys2Proof
end

