-- ==== Sys2Proof/Laws/State.lean ====
section
/-! SUPPORT. One lemma per field per register operation of Machine/Ops.lean, true by rfl, so that no later proof
unfolds a record update. -/

namespace Sys2Proof.Machine

variable (s : State)

/-! ### latchStatus -/

section
variable (b : Byte)

@[simp] theorem latchStatus_phase : (latchStatus b s).phase = s.phase := rfl
@[simp] theorem latchStatus_status : (latchStatus b s).status = b := rfl
@[simp] theorem latchStatus_data1 : (latchStatus b s).data1 = s.data1 := rfl
@[simp] theorem latchStatus_data2 : (latchStatus b s).data2 = s.data2 := rfl
@[simp] theorem latchStatus_sxBuf : (latchStatus b s).sxBuf = s.sxBuf := rfl
@[simp] theorem latchStatus_filter : (latchStatus b s).filter = s.filter := rfl
@[simp] theorem latchStatus_result : (latchStatus b s).result = s.result := rfl
@[simp] theorem latchStatus_txQueue : (latchStatus b s).txQueue = s.txQueue := rfl
@[simp] theorem latchStatus_txCount : (latchStatus b s).txCount = s.txCount := rfl
@[simp] theorem latchStatus_txResult : (latchStatus b s).txResult = s.txResult := rfl
@[simp] theorem latchStatus_params : (latchStatus b s).params = s.params := rfl
@[simp] theorem latchStatus_inputs : (latchStatus b s).inputs = s.inputs := rfl
@[simp] theorem latchStatus_sink : (latchStatus b s).sink = s.sink := rfl

end

/-! ### latchData1 -/

section
variable (b : Byte)

@[simp] theorem latchData1_phase : (latchData1 b s).phase = s.phase := rfl
@[simp] theorem latchData1_status : (latchData1 b s).status = s.status := rfl
@[simp] theorem latchData1_data1 : (latchData1 b s).data1 = b := rfl
@[simp] theorem latchData1_data2 : (latchData1 b s).data2 = s.data2 := rfl
@[simp] theorem latchData1_sxBuf : (latchData1 b s).sxBuf = s.sxBuf := rfl
@[simp] theorem latchData1_filter : (latchData1 b s).filter = s.filter := rfl
@[simp] theorem latchData1_result : (latchData1 b s).result = s.result := rfl
@[simp] theorem latchData1_txQueue : (latchData1 b s).txQueue = s.txQueue := rfl
@[simp] theorem latchData1_txCount : (latchData1 b s).txCount = s.txCount := rfl
@[simp] theorem latchData1_txResult : (latchData1 b s).txResult = s.txResult := rfl
@[simp] theorem latchData1_params : (latchData1 b s).params = s.params := rfl
@[simp] theorem latchData1_inputs : (latchData1 b s).inputs = s.inputs := rfl
@[simp] theorem latchData1_sink : (latchData1 b s).sink = s.sink := rfl

end

/-! ### latchData2 -/

section
variable (b : Byte)

@[simp] theorem latchData2_phase : (latchData2 b s).phase = s.phase := rfl
@[simp] theorem latchData2_status : (latchData2 b s).status = s.status := rfl
@[simp] theorem latchData2_data1 : (latchData2 b s).data1 = s.data1 := rfl
@[simp] theorem latchData2_data2 : (latchData2 b s).data2 = b := rfl
@[simp] theorem latchData2_sxBuf : (latchData2 b s).sxBuf = s.sxBuf := rfl
@[simp] theorem latchData2_filter : (latchData2 b s).filter = s.filter := rfl
@[simp] theorem latchData2_result : (latchData2 b s).result = s.result := rfl
@[simp] theorem latchData2_txQueue : (latchData2 b s).txQueue = s.txQueue := rfl
@[simp] theorem latchData2_txCount : (latchData2 b s).txCount = s.txCount := rfl
@[simp] theorem latchData2_txResult : (latchData2 b s).txResult = s.txResult := rfl
@[simp] theorem latchData2_params : (latchData2 b s).params = s.params := rfl
@[simp] theorem latchData2_inputs : (latchData2 b s).inputs = s.inputs := rfl
@[simp] theorem latchData2_sink : (latchData2 b s).sink = s.sink := rfl

end

/-! ### setBuf -/

section
variable (bs : List Byte)

@[simp] theorem setBuf_phase : (setBuf bs s).phase = s.phase := rfl
@[simp] theorem setBuf_status : (setBuf bs s).status = s.status := rfl
@[simp] theorem setBuf_data1 : (setBuf bs s).data1 = s.data1 := rfl
@[simp] theorem setBuf_data2 : (setBuf bs s).data2 = s.data2 := rfl
@[simp] theorem setBuf_sxBuf : (setBuf bs s).sxBuf = bs := rfl
@[simp] theorem setBuf_filter : (setBuf bs s).filter = s.filter := rfl
@[simp] theorem setBuf_result : (setBuf bs s).result = s.result := rfl
@[simp] theorem setBuf_txQueue : (setBuf bs s).txQueue = s.txQueue := rfl
@[simp] theorem setBuf_txCount : (setBuf bs s).txCount = s.txCount := rfl
@[simp] theorem setBuf_txResult : (setBuf bs s).txResult = s.txResult := rfl
@[simp] theorem setBuf_params : (setBuf bs s).params = s.params := rfl
@[simp] theorem setBuf_inputs : (setBuf bs s).inputs = s.inputs := rfl
@[simp] theorem setBuf_sink : (setBuf bs s).sink = s.sink := rfl

end

/-! ### goto -/

section
variable (p : Phase)

@[simp] theorem goto_phase : (goto p s).phase = p := rfl
@[simp] theorem goto_status : (goto p s).status = s.status := rfl
@[simp] theorem goto_data1 : (goto p s).data1 = s.data1 := rfl
@[simp] theorem goto_data2 : (goto p s).data2 = s.data2 := rfl
@[simp] theorem goto_sxBuf : (goto p s).sxBuf = s.sxBuf := rfl
@[simp] theorem goto_filter : (goto p s).filter = s.filter := rfl
@[simp] theorem goto_result : (goto p s).result = s.result := rfl
@[simp] theorem goto_txQueue : (goto p s).txQueue = s.txQueue := rfl
@[simp] theorem goto_txCount : (goto p s).txCount = s.txCount := rfl
@[simp] theorem goto_txResult : (goto p s).txResult = s.txResult := rfl
@[simp] theorem goto_params : (goto p s).params = s.params := rfl
@[simp] theorem goto_inputs : (goto p s).inputs = s.inputs := rfl
@[simp] theorem goto_sink : (goto p s).sink = s.sink := rfl

end

/-! ### endRead -/

section
variable (r : RxResult)

@[simp] theorem endRead_phase : (endRead r s).phase = .done := rfl
@[simp] theorem endRead_status : (endRead r s).status = s.status := rfl
@[simp] theorem endRead_data1 : (endRead r s).data1 = s.data1 := rfl
@[simp] theorem endRead_data2 : (endRead r s).data2 = s.data2 := rfl
@[simp] theorem endRead_sxBuf : (endRead r s).sxBuf = s.sxBuf := rfl
@[simp] theorem endRead_filter : (endRead r s).filter = s.filter := rfl
@[simp] theorem endRead_result : (endRead r s).result = r := rfl
@[simp] theorem endRead_txQueue : (endRead r s).txQueue = s.txQueue := rfl
@[simp] theorem endRead_txCount : (endRead r s).txCount = s.txCount := rfl
@[simp] theorem endRead_txResult : (endRead r s).txResult = s.txResult := rfl
@[simp] theorem endRead_params : (endRead r s).params = s.params := rfl
@[simp] theorem endRead_inputs : (endRead r s).inputs = s.inputs := rfl
@[simp] theorem endRead_sink : (endRead r s).sink = s.sink := rfl

end

/-! ### openRead -/

section
variable (f : Filter)

@[simp] theorem openRead_phase : (openRead f s).phase = .awaitStatus := rfl
@[simp] theorem openRead_status : (openRead f s).status = s.status := rfl
@[simp] theorem openRead_data1 : (openRead f s).data1 = s.data1 := rfl
@[simp] theorem openRead_data2 : (openRead f s).data2 = s.data2 := rfl
@[simp] theorem openRead_sxBuf : (openRead f s).sxBuf = [] := rfl
@[simp] theorem openRead_filter : (openRead f s).filter = f := rfl
@[simp] theorem openRead_result : (openRead f s).result = RxResult.empty := rfl
@[simp] theorem openRead_txQueue : (openRead f s).txQueue = s.txQueue := rfl
@[simp] theorem openRead_txCount : (openRead f s).txCount = s.txCount := rfl
@[simp] theorem openRead_txResult : (openRead f s).txResult = s.txResult := rfl
@[simp] theorem openRead_params : (openRead f s).params = s.params := rfl
@[simp] theorem openRead_inputs : (openRead f s).inputs = s.inputs := rfl
@[simp] theorem openRead_sink : (openRead f s).sink = s.sink := rfl

end

/-! ### raiseTx -/

section
variable (r : TxResult)

@[simp] theorem raiseTx_phase : (raiseTx r s).phase = s.phase := rfl
@[simp] theorem raiseTx_status : (raiseTx r s).status = s.status := rfl
@[simp] theorem raiseTx_data1 : (raiseTx r s).data1 = s.data1 := rfl
@[simp] theorem raiseTx_data2 : (raiseTx r s).data2 = s.data2 := rfl
@[simp] theorem raiseTx_sxBuf : (raiseTx r s).sxBuf = s.sxBuf := rfl
@[simp] theorem raiseTx_filter : (raiseTx r s).filter = s.filter := rfl
@[simp] theorem raiseTx_result : (raiseTx r s).result = s.result := rfl
@[simp] theorem raiseTx_txQueue : (raiseTx r s).txQueue = [] := rfl
@[simp] theorem raiseTx_txCount : (raiseTx r s).txCount = 0 := rfl
@[simp] theorem raiseTx_txResult : (raiseTx r s).txResult = r := rfl
@[simp] theorem raiseTx_params : (raiseTx r s).params = s.params := rfl
@[simp] theorem raiseTx_inputs : (raiseTx r s).inputs = s.inputs := rfl
@[simp] theorem raiseTx_sink : (raiseTx r s).sink = s.sink := rfl

end

/-! ### openSend -/

section
variable (bs : List Byte)

@[simp] theorem openSend_phase : (openSend bs s).phase = s.phase := rfl
@[simp] theorem openSend_status : (openSend bs s).status = s.status := rfl
@[simp] theorem openSend_data1 : (openSend bs s).data1 = s.data1 := rfl
@[simp] theorem openSend_data2 : (openSend bs s).data2 = s.data2 := rfl
@[simp] theorem openSend_sxBuf : (openSend bs s).sxBuf = s.sxBuf := rfl
@[simp] theorem openSend_filter : (openSend bs s).filter = s.filter := rfl
@[simp] theorem openSend_result : (openSend bs s).result = s.result := rfl
@[simp] theorem openSend_txQueue : (openSend bs s).txQueue = bs := rfl
@[simp] theorem openSend_txCount : (openSend bs s).txCount = 0 := rfl
@[simp] theorem openSend_txResult : (openSend bs s).txResult = TxResult.empty := rfl
@[simp] theorem openSend_params : (openSend bs s).params = s.params := rfl
@[simp] theorem openSend_inputs : (openSend bs s).inputs = s.inputs := rfl
@[simp] theorem openSend_sink : (openSend bs s).sink = s.sink := rfl

end

/-! ### memWrite -/

section
variable (b : Byte)

@[simp] theorem memWrite_phase : (memWrite b s).phase = s.phase := rfl
@[simp] theorem memWrite_status : (memWrite b s).status = s.status := rfl
@[simp] theorem memWrite_data1 : (memWrite b s).data1 = s.data1 := rfl
@[simp] theorem memWrite_data2 : (memWrite b s).data2 = s.data2 := rfl
@[simp] theorem memWrite_sxBuf : (memWrite b s).sxBuf = s.sxBuf := rfl
@[simp] theorem memWrite_filter : (memWrite b s).filter = s.filter := rfl
@[simp] theorem memWrite_result : (memWrite b s).result = s.result := rfl
@[simp] theorem memWrite_txQueue : (memWrite b s).txQueue = s.txQueue := rfl
@[simp] theorem memWrite_txCount : (memWrite b s).txCount = s.txCount := rfl
@[simp] theorem memWrite_txResult : (memWrite b s).txResult = s.txResult := rfl
@[simp] theorem memWrite_params : (memWrite b s).params = s.params := rfl
@[simp] theorem memWrite_inputs : (memWrite b s).inputs = s.inputs := rfl
@[simp] theorem memWrite_sink : (memWrite b s).sink = s.sink ++ [b] := rfl

end

/-! ### resetBlock -/

@[simp] theorem resetBlock_phase : (resetBlock s).phase = .idle := rfl
@[simp] theorem resetBlock_sxBuf : (resetBlock s).sxBuf = [] := rfl
@[simp] theorem resetBlock_result : (resetBlock s).result = RxResult.empty := rfl
@[simp] theorem resetBlock_txQueue : (resetBlock s).txQueue = [] := rfl
@[simp] theorem resetBlock_txCount : (resetBlock s).txCount = 0 := rfl
@[simp] theorem resetBlock_txResult : (resetBlock s).txResult = TxResult.empty := rfl
theorem resetBlock_toBlock : (resetBlock s).toBlock = Block.reset := rfl
@[simp] theorem resetBlock_params : (resetBlock s).params = s.params := rfl
@[simp] theorem resetBlock_inputs : (resetBlock s).inputs = s.inputs := rfl
@[simp] theorem resetBlock_sink : (resetBlock s).sink = s.sink := rfl

/-! ### takeByte -/

section
variable (b : Byte) (rest : List Byte)

@[simp] theorem takeByte_phase : (takeByte b rest s).phase = s.phase := by
  unfold takeByte; split <;> rfl
@[simp] theorem takeByte_status : (takeByte b rest s).status = s.status := by
  unfold takeByte; split <;> rfl
@[simp] theorem takeByte_data1 : (takeByte b rest s).data1 = s.data1 := by
  unfold takeByte; split <;> rfl
@[simp] theorem takeByte_data2 : (takeByte b rest s).data2 = s.data2 := by
  unfold takeByte; split <;> rfl
@[simp] theorem takeByte_sxBuf : (takeByte b rest s).sxBuf = s.sxBuf := by
  unfold takeByte; split <;> rfl
@[simp] theorem takeByte_filter : (takeByte b rest s).filter = s.filter := by
  unfold takeByte; split <;> rfl
@[simp] theorem takeByte_result : (takeByte b rest s).result = s.result := by
  unfold takeByte; split <;> rfl
@[simp] theorem takeByte_txQueue : (takeByte b rest s).txQueue = rest := by
  unfold takeByte; split <;> rfl
@[simp] theorem takeByte_txCount : (takeByte b rest s).txCount = countTo s.params (s.txCount + 1) := by
  unfold takeByte; split <;> rfl
@[simp] theorem takeByte_params : (takeByte b rest s).params = s.params := by
  unfold takeByte; split <;> rfl
@[simp] theorem takeByte_inputs : (takeByte b rest s).inputs = s.inputs := by
  unfold takeByte; split <;> rfl
@[simp] theorem takeByte_sink : (takeByte b rest s).sink = s.sink ++ [b] := by
  unfold takeByte; split <;> rfl

@[simp] theorem takeByte_last_txResult :
    (takeByte b [] s).txResult = TxResult.sent (countTo s.params (s.txCount + 1)) := rfl

@[simp] theorem takeByte_cons_txResult (c : Byte) : (takeByte b (c :: rest) s).txResult = s.txResult := rfl

end

end Sys2Proof.Machine
end

