-- ==== Sys2Proof/Laws/Exec.lean ====
section
/-! SUPPORT. What the meanings do, said once: every frame ends its read operation, and which registers it leaves alone.
Later proofs cite these and unfold no meaning. -/

namespace Sys2Proof.Machine

/-! ### Normalisation and validity -/

theorem normalise_valid (m : Message) (h : m.valid = true) : (normalise m).valid = true := by
  cases m <;> simp only [normalise] at h ⊢ <;> first | exact h | (split <;> exact h)

@[simp] theorem normalise_idem (m : Message) : normalise (normalise m) = normalise m := by
  cases m <;> try rfl
  case noteOn ch n v =>
    by_cases h : v = 0
    · simp only [normalise, if_pos h]
    · simp only [normalise, if_neg h]

theorem normalise_channel (m : Message) : (normalise m).channel? = m.channel? := by
  cases m <;> try rfl
  case noteOn ch n v =>
    by_cases h : v = 0
    · simp only [normalise, if_pos h, Message.channel?]
    · simp only [normalise, if_neg h, Message.channel?]

/-! ### The end of a read operation -/

/-- The record a channel frame ends with: the state matters only through its filter. -/
def channelResult (built : Built) (c : WireChannel) (st : Byte) (f : Filter) : RxResult :=
  match built with
  | .badField k => RxResult.invalidField k st
  | .message m => if f.passes (channelOf c) then RxResult.message (normalise m) else RxResult.filtered st

/-- A channel frame ends its read operation with `channelResult` and does nothing else. -/
theorem finishChannel_eq (built : Built) (c : WireChannel) (st : Byte) (s : State) :
    finishChannel built c st s = endRead (channelResult built c st s.filter) s := by
  unfold finishChannel channelResult
  cases built with
  | badField k => rfl
  | message m => dsimp only; split <;> rfl

/-- The record a SysEx frame ends with. -/
def sysExResult (built : Built) : RxResult :=
  match built with
  | .badField k => RxResult.invalidField k sysexStart
  | .message m => RxResult.message m

/-- A SysEx frame ends its read operation with `sysExResult` and does nothing else. -/
theorem finishSysEx_eq (built : Built) (s : State) : finishSysEx built s = endRead (sysExResult built) s := by
  cases built <;> rfl

/-! ### The effect of an instruction, in one form -/

/-- The record an instruction ends its read operation with, under a filter. -/
def resultOf (f : Filter) : Instr → RxResult
  | .noteOff c n v => channelResult (build2 (.noteOff (channelOf c)) n v) c (statusOf 0x8 c) f
  | .noteOn c n v => channelResult (build2 (.noteOn (channelOf c)) n v) c (statusOf 0x9 c) f
  | .polyAt c n p => channelResult (build2 (.polyphonicAftertouch (channelOf c)) n p) c (statusOf 0xA c) f
  | .ctrlChange c k v => channelResult (build2 (.controlChange (channelOf c)) k v) c (statusOf 0xB c) f
  | .progChange c w => channelResult (build1 (fun b => .programChange (channelOf c) (programOf b)) w) c (statusOf 0xC c) f
  | .chanAt c p => channelResult (build1 (fun b => .channelAftertouch (channelOf c) (low7 b)) p) c (statusOf 0xD c) f
  | .pitchBend c l m => channelResult (build2 (.pitchBend (channelOf c)) l m) c (statusOf 0xE c) f
  | .sysex id data => sysExResult (buildSysEx id data)
  | .unrecData x _ _ => RxResult.unrecognized (widen x)
  | .unrecF1 => RxResult.unrecognized 0xF1
  | .unrecF2F3 x => RxResult.unrecognized (0b1111001#7 ++ x)
  | .unrecF4F7 x => RxResult.unrecognized (0b111101#6 ++ x)
  | .unrecF8FF x => RxResult.unrecognized (0b11111#5 ++ x)

/-- The latches an instruction fills, from its frame. -/
def latched : Instr → State → State
  | .noteOff c n v, s => latchData2 v (latchData1 n (latchStatus (statusOf 0x8 c) s))
  | .noteOn c n v, s => latchData2 v (latchData1 n (latchStatus (statusOf 0x9 c) s))
  | .polyAt c n p, s => latchData2 p (latchData1 n (latchStatus (statusOf 0xA c) s))
  | .ctrlChange c k v, s => latchData2 v (latchData1 k (latchStatus (statusOf 0xB c) s))
  | .progChange c w, s => latchData1 w (latchStatus (statusOf 0xC c) s)
  | .chanAt c p, s => latchData1 p (latchStatus (statusOf 0xD c) s)
  | .pitchBend c l m, s => latchData2 m (latchData1 l (latchStatus (statusOf 0xE c) s))
  | .sysex id data, s => setBuf data (latchData1 id (latchStatus sysexStart s))
  | .unrecData x a b, s => latchData2 b (latchData1 a (latchStatus (widen x) s))
  | .unrecF1, s => latchStatus 0xF1 s
  | .unrecF2F3 x, s => latchStatus (0b1111001#7 ++ x) s
  | .unrecF4F7 x, s => latchStatus (0b111101#6 ++ x) s
  | .unrecF8FF x, s => latchStatus (0b11111#5 ++ x) s

/-- The frame of `latched`: only the latches and the buffer are written. -/
theorem latched_frame (i : Instr) (s : State) :
    (latched i s).filter = s.filter ∧ (latched i s).txQueue = s.txQueue ∧ (latched i s).txCount = s.txCount ∧
    (latched i s).txResult = s.txResult ∧ (latched i s).params = s.params ∧ (latched i s).inputs = s.inputs ∧
    (latched i s).sink = s.sink := by
  cases i <;> exact ⟨rfl, rfl, rfl, rfl, rfl, rfl, rfl⟩

/-- EVERY meaning: the frame is latched and the read operation ends with `resultOf`. The provers cite this and unfold
no meaning. -/
theorem exec_eq (i : Instr) (s : State) : exec i s = .next (endRead (resultOf s.filter i) (latched i s)) := by
  cases i <;>
    simp only [exec, execNoteOff, execNoteOn, execPolyAt, execCtrlChange, execProgChange, execChanAt, execPitchBend,
      execSysex, execUnrecData, execUnrecF1, execUnrecF2F3, execUnrecF4F7, execUnrecF8FF, runThreeByte, runTwoByte,
      runAlone, finishChannel_eq, finishSysEx_eq, resultOf, latched] <;> rfl

/-- The latches that the instruction of complete bytes fills, by class. -/
theorem latched_class (st d1 d2 : Byte) (data : List Byte) (s : State) :
    latched (instrOf st d1 d2 data) s =
      match frameClass st with
      | .alone => latchStatus st s
      | .oneData => latchData1 d1 (latchStatus st s)
      | .twoData => latchData2 d2 (latchData1 d1 (latchStatus st s))
      | .sysex => setBuf data (latchData1 d1 (latchStatus st s)) := by
  have inv := firstByte_opcodeOf st
  rw [frameClass_eq]
  unfold instrOf
  cases h : opcodeOf st <;> rw [h] at inv <;> simp only [latched, Opcode.frameClass] <;>
    simp only [Opcode.firstByte] at inv <;> rw [inv]

/-- Latching the bytes that the latches already hold changes nothing. -/
theorem latched_instrOf (s : State) : latched (instrOf s.status s.data1 s.data2 s.sxBuf) s = s := by
  rw [latched_class]
  cases frameClass s.status <;> rfl

/-- `Complete` writes `result` and `phase` only. -/
theorem complete_eq (s : State) :
    complete s = .next (endRead (resultOf s.filter (instrOf s.status s.data1 s.data2 s.sxBuf)) s) := by
  rw [complete, exec_eq, latched_instrOf]

/-! ### An instruction is the completion of its latched bytes -/

theorem exec_alone {st : Byte} (h : frameClass st = .alone) (d1 d2 : Byte) (data : List Byte) (s : State) :
    exec (instrOf st d1 d2 data) s = complete (latchStatus st s) := by
  rw [complete_eq, exec_eq, latched_class, h]
  exact congrArg (fun i => Host.Outcome.next (endRead (resultOf s.filter i) (latchStatus st s)))
    (instrOf_congr _ _ _ _ _ _ _ (fun hn => absurd h hn) (fun hn => by rw [h] at hn; cases hn)
      (fun hn => by rw [h] at hn; cases hn))

theorem exec_oneData {st : Byte} (h : frameClass st = .oneData) (d1 d2 : Byte) (data : List Byte) (s : State) :
    exec (instrOf st d1 d2 data) s = complete (latchData1 d1 (latchStatus st s)) := by
  rw [complete_eq, exec_eq, latched_class, h]
  exact congrArg (fun i => Host.Outcome.next (endRead (resultOf s.filter i) (latchData1 d1 (latchStatus st s))))
    (instrOf_congr _ _ _ _ _ _ _ (fun _ => rfl) (fun hn => by rw [h] at hn; cases hn)
      (fun hn => by rw [h] at hn; cases hn))

theorem exec_twoData {st : Byte} (h : frameClass st = .twoData) (d1 d2 : Byte) (data : List Byte) (s : State) :
    exec (instrOf st d1 d2 data) s = complete (latchData2 d2 (latchData1 d1 (latchStatus st s))) := by
  rw [complete_eq, exec_eq, latched_class, h]
  exact congrArg
    (fun i => Host.Outcome.next (endRead (resultOf s.filter i) (latchData2 d2 (latchData1 d1 (latchStatus st s)))))
    (instrOf_congr _ _ _ _ _ _ _ (fun _ => rfl) (fun _ => rfl) (fun hn => by rw [h] at hn; cases hn))

theorem exec_sysex {st : Byte} (h : frameClass st = .sysex) (d1 d2 : Byte) (data : List Byte) (s : State) :
    exec (instrOf st d1 d2 data) s = complete (setBuf data (latchData1 d1 (latchStatus st s))) := by
  rw [complete_eq, exec_eq, latched_class, h]
  exact congrArg
    (fun i => Host.Outcome.next (endRead (resultOf s.filter i) (setBuf data (latchData1 d1 (latchStatus st s)))))
    (instrOf_congr _ _ _ _ _ _ _ (fun _ => rfl) (fun hn => by rw [h] at hn; cases hn) (fun _ => rfl))

/-! ### The records -/

/-- What a construction may give: a valid message, or field 1 or 2. -/
def Built.ok : Built → Prop
  | .message m => m.valid = true
  | .badField k => k = 1 ∨ k = 2

theorem build2_ok (mk : Data7 → Data7 → Message) (d1 d2 : Byte) (h : ∀ a b, (mk a b).valid = true) :
    (build2 mk d1 d2).ok := by
  unfold build2
  split
  · exact Or.inl rfl
  · split
    · exact Or.inr rfl
    · exact h _ _

theorem build1_ok (mk : Byte → Message) (d1 : Byte) (h : ∀ a : Byte, a ≤ 127 → (mk a).valid = true) :
    (build1 mk d1).ok := by
  unfold build1
  split
  · exact Or.inl rfl
  · next hd => exact h _ (BitVec.not_lt.1 hd)

theorem buildSysEx_ok (id : Byte) (data : List Byte) (h : bodyOk data = true) : (buildSysEx id data).ok := by
  unfold buildSysEx
  split
  · exact Or.inl rfl
  · split
    · exact Or.inr rfl
    · next hd => simp [Built.ok, Message.valid, h, hd]

theorem channelResult_ok (built : Built) (c : WireChannel) (st : Byte) (f : Filter) (hb : built.ok) :
    (channelResult built c st f).ok = true := by
  cases built with
  | badField k => rcases hb with rfl | rfl <;> simp [channelResult, RxResult.ok, RxResult.invalidField]
  | message m =>
    unfold channelResult
    dsimp only
    split
    · simp [RxResult.ok, RxResult.message, normalise_valid m hb]
    · simp [RxResult.ok, RxResult.filtered]

theorem channelOk_channelOf (c : WireChannel) : channelOk (channelOf c) = true := by revert c; decide

theorem programOf_range (b : Byte) : b ≤ 127 → 1 ≤ programOf b ∧ programOf b ≤ 128 := by revert b; decide

/-- Whatever a frame ends with is a record of 10_state.md R17. -/
theorem resultOf_ok (f : Filter) (i : Instr) (h : i.wf = true) : (resultOf f i).ok = true := by
  cases i <;> simp only [resultOf]
  case noteOff | noteOn | polyAt | ctrlChange | pitchBend =>
    exact channelResult_ok _ _ _ _ (build2_ok _ _ _ fun _ _ => channelOk_channelOf _)
  case progChange =>
    refine channelResult_ok _ _ _ _ (build1_ok _ _ fun a ha => ?_)
    obtain ⟨h1, h2⟩ := programOf_range a ha
    simp only [Message.valid, channelOk_channelOf, decide_eq_true h1, decide_eq_true h2, Bool.and_self]
  case chanAt => exact channelResult_ok _ _ _ _ (build1_ok _ _ fun _ _ => channelOk_channelOf _)
  case sysex id data =>
    have hb := buildSysEx_ok id data h
    have hm : ∀ m, buildSysEx id data = .message m → normalise m = m := by
      intro m hm
      unfold buildSysEx at hm
      split at hm
      · cases hm
      · split at hm
        · cases hm
        · cases hm; rfl
    cases hbuilt : buildSysEx id data with
    | badField k => rw [hbuilt] at hb; rcases hb with rfl | rfl <;> decide
    | message m =>
      rw [hbuilt] at hb
      have hv : m.valid = true := hb
      simp [sysExResult, RxResult.ok, RxResult.message, hv, hm m hbuilt]
  all_goals simp [RxResult.ok, RxResult.unrecognized]

/-- A frame always ends with an outcome. -/
theorem resultOf_outcome (f : Filter) (i : Instr) : (resultOf f i).outcome ≠ .noOutcome := by
  have ch : ∀ (b : Built) (c : WireChannel) (st : Byte), (channelResult b c st f).outcome ≠ .noOutcome := by
    intro b c st
    unfold channelResult
    cases b with
    | badField k => simp [RxResult.invalidField]
    | message m => dsimp only; split <;> simp [RxResult.message, RxResult.filtered]
  cases i <;> simp only [resultOf] <;> try exact ch _ _ _
  case sysex id data => unfold buildSysEx; split <;> [skip; split] <;> simp [sysExResult, RxResult.invalidField, RxResult.message]
  all_goals simp [RxResult.unrecognized]

/-- No frame ends with SysExOverflow: that is the outcome of a byte before the frame is complete. -/
theorem resultOf_cause (f : Filter) (i : Instr) : (resultOf f i).cause ≠ .sysExOverflow := by
  have ch : ∀ (b : Built) (c : WireChannel) (st : Byte), (channelResult b c st f).cause ≠ .sysExOverflow := by
    intro b c st
    unfold channelResult
    cases b with
    | badField k => simp [RxResult.invalidField]
    | message m => dsimp only; split <;> simp [RxResult.message, RxResult.filtered]
  cases i <;> simp only [resultOf] <;> try exact ch _ _ _
  case sysex id data => unfold buildSysEx; split <;> [skip; split] <;> simp [sysExResult, RxResult.invalidField, RxResult.message]
  all_goals simp [RxResult.unrecognized]

/-- A construction never makes a SysEx message from channel bytes. -/
theorem channelResult_msgInBuf (buf : List Byte) (built : Built) (c : WireChannel) (st : Byte) (f : Filter)
    (h : ∀ m, built = .message m → m.tag ≠ .sysEx) : msgInBuf buf (channelResult built c st f).msg = true := by
  cases built with
  | badField k => rfl
  | message m =>
    unfold channelResult
    dsimp only
    split
    · cases m <;> try rfl
      · simp only [normalise, RxResult.message]; split <;> rfl
      · exact absurd rfl (h _ rfl)
    · rfl

/-- The data of a message that a complete frame delivers is what the buffer holds (70_reset_and_hazards.md R244). -/
theorem resultOf_msgInBuf (f : Filter) (st d1 d2 : Byte) (buf : List Byte) :
    msgInBuf buf (resultOf f (instrOf st d1 d2 buf)).msg = true := by
  have two : ∀ (mk : Data7 → Data7 → Message) a b, (∀ x y, (mk x y).tag ≠ .sysEx) →
      ∀ m, build2 mk a b = .message m → m.tag ≠ .sysEx := by
    intro mk a b h m hm
    unfold build2 at hm
    split at hm
    · cases hm
    · split at hm <;> cases hm
      exact h _ _
  have one : ∀ (mk : Byte → Message) a, (∀ x, (mk x).tag ≠ .sysEx) → ∀ m, build1 mk a = .message m → m.tag ≠ .sysEx := by
    intro mk a h m hm
    unfold build1 at hm
    split at hm <;> cases hm
    exact h _
  unfold instrOf
  cases opcodeOf st <;> simp only [resultOf]
  case noteOff | noteOn | polyAt | ctrlChange | pitchBend =>
    exact channelResult_msgInBuf _ _ _ _ _ (two _ _ _ (by intro _ _ h; cases h))
  case progChange | chanAt => exact channelResult_msgInBuf _ _ _ _ _ (one _ _ (by intro _ h; cases h))
  case sysex =>
    unfold buildSysEx
    split
    · rfl
    · split
      · rfl
      · simp [sysExResult, RxResult.message, msgInBuf]
  all_goals rfl

end Sys2Proof.Machine
end

