-- ==== Sys2Proof/Laws/Step.lean ====
section
/-! SUPPORT. What a step does, said once: which event it takes, when it answers a next state, and the byte-by-byte read
as inversion lemmas. -/

namespace Sys2Proof.Machine

/-! ### Steps and runs -/

theorem step_nil {s : State} (h : s.inputs = []) : step s = .next s := by
  simp only [step, stepOnce, h]

theorem step_cons {s : State} {e : Event} {rest : List Event} (h : s.inputs = e :: rest) :
    step s = handle e { s with inputs := rest } := by
  simp only [step, stepOnce, h]

@[simp] theorem run_zero (s : State) : run 0 s = .next s := rfl

theorem run_next {s t : State} (k : Nat) (h : step s = .next t) : run (k + 1) s = run k t := by
  simp only [run, h]

/-- A run that answers a next state is a step that answers one, and the rest of the run. -/
theorem run_succ_next {s u : State} {k : Nat} (h : run (k + 1) s = .next u) : ∃ t, step s = .next t ∧ run k t = .next u := by
  unfold run at h
  split at h
  · next t ht => exact ⟨t, ht, h⟩
  · cases h
  · cases h

theorem run_add {s t : State} (j k : Nat) (h : run j s = .next t) : run (j + k) s = run k t := by
  induction j generalizing s with
  | zero => cases h; rw [Nat.zero_add]
  | succ j ih =>
    obtain ⟨u, hu, hr⟩ := run_succ_next h
    rw [Nat.succ_add, run_next _ hu, ih hr]

/-- `run` is the host's run of this machine. -/
theorem run_eq_core_run (k : Nat) (s : State) : run k s = Host.Core.run Sys2Proof.core k s := by
  induction k generalizing s with
  | zero => rfl
  | succ k ih =>
    refine Eq.trans ?_ (Host.Core.run.eq_2 Sys2Proof.core s k).symm
    have hs : Sys2Proof.core.step s = step s := rfl
    rw [hs]
    unfold run
    cases step s <;> first | rfl | exact ih _

/-- No event ends in a fault. -/
theorem handle_no_fault (e : Event) (s : State) (r : Fault) : handle e s ≠ .fault r := nomatch r

/-! ### Acceptance -/

/-- `onReadStart` answers by its acceptance. -/
theorem onReadStart_eq (f : Filter) (s : State) :
    onReadStart f s = if s.phase = .idle ∨ s.phase = .done then .next (openRead f s)
      else .refused (.eventNotAccepted (.readStart f)) := by
  unfold onReadStart; cases s.phase <;> rfl

/-- A cut ends the open read operation, with the outcome of its phase. -/
theorem onCut_eq (e : Event) (reason : Cause) (s : State) :
    onCut e reason s = if s.phase = .awaitStatus then .next (endRead (RxResult.noByte reason) s)
      else if s.phase.awaits then .next (endRead (RxResult.partialMessage reason s.status) s)
      else .refused (.eventNotAccepted e) := by
  unfold onCut; cases s.phase <;> rfl

/-- Inversion of `onByte`: an accepted byte either completes the frame in the latches, or overflows, or is only kept. -/
theorem onByte_cases (b : Byte) (s : State) :
    (s.phase.awaits = false ∧ onByte b s = .refused (.eventNotAccepted (.byte b))) ∨
    (s.phase = .awaitStatus ∧ frameClass b = .alone ∧ onByte b s = complete (latchStatus b s)) ∨
    (s.phase = .awaitStatus ∧ frameClass b ≠ .alone ∧ onByte b s = .next (goto .awaitData1 (latchStatus b s))) ∨
    (s.phase = .awaitData1 ∧ frameClass s.status = .sysex ∧
      onByte b s = .next (goto .sysExAccumulate (latchData1 b s))) ∨
    (s.phase = .awaitData1 ∧ frameClass s.status = .oneData ∧ onByte b s = complete (latchData1 b s)) ∨
    (s.phase = .awaitData1 ∧ frameClass s.status ≠ .sysex ∧ frameClass s.status ≠ .oneData ∧
      onByte b s = .next (goto .awaitData2 (latchData1 b s))) ∨
    (s.phase = .awaitData2 ∧ onByte b s = complete (latchData2 b s)) ∨
    (s.phase = .sysExAccumulate ∧ b = terminator ∧ onByte b s = complete s) ∨
    (s.phase = .sysExAccumulate ∧ b ≠ terminator ∧ s.params.sysexCap = some s.sxBuf.length ∧
      onByte b s = .next (endRead RxResult.overflow s)) ∨
    (s.phase = .sysExAccumulate ∧ b ≠ terminator ∧ s.params.sysexCap ≠ some s.sxBuf.length ∧
      onByte b s = .next (setBuf (s.sxBuf ++ [b]) s)) := by
  have hs : ∀ st : Byte, (st = sysexStart ↔ frameClass st = .sysex) ∧
      (st ≠ sysexStart → (typeNibble st = 0xF ↔ frameClass st = .alone)) ∧
      (typeNibble st = 0xC ∨ typeNibble st = 0xD ↔ frameClass st = .oneData) := by decide
  cases hp : s.phase <;> simp only [onByte, hp, Phase.awaits, reduceCtorEq, false_and, true_and, false_or, or_false]
  case awaitStatus =>
    unfold byteAtStatus
    obtain ⟨h1, h2, -⟩ := hs b
    by_cases hb : b = sysexStart
    · right
      have := h1.1 hb
      simp only [if_pos hb, this, ne_eq, reduceCtorEq, not_false_eq_true, and_self]
    · rw [if_neg hb]
      by_cases hn : typeNibble b = 0xF
      · left; exact ⟨(h2 hb).1 hn, by rw [if_pos hn]⟩
      · right; exact ⟨fun h => hn ((h2 hb).2 h), by rw [if_neg hn]⟩
  case awaitData1 =>
    unfold byteAtData1
    obtain ⟨h1, -, h3⟩ := hs s.status
    by_cases hb : s.status = sysexStart
    · left; exact ⟨h1.1 hb, by rw [if_pos hb]⟩
    · rw [if_neg hb]
      right
      by_cases hn : typeNibble s.status = 0xC ∨ typeNibble s.status = 0xD
      · left; exact ⟨h3.1 hn, by rw [if_pos hn]⟩
      · right; exact ⟨fun h => hb (h1.2 h), fun h => hn (h3.2 h), by rw [if_neg hn]⟩
  case awaitData2 => rfl
  case sysExAccumulate =>
    unfold byteAtSysEx bufFull
    by_cases hb : b = terminator
    · left; exact ⟨hb, by rw [if_pos hb]⟩
    · right
      rw [if_neg hb]
      by_cases hf : s.params.sysexCap = some s.sxBuf.length
      · left; exact ⟨hb, hf, by simp [hf]⟩
      · right; exact ⟨hb, hf, by simp [hf]⟩

/-! ### One byte, by the class of the frame it belongs to -/

section
variable {b : Byte} {s : State}

theorem onByte_alone (hp : s.phase = .awaitStatus) (hb : frameClass b = .alone) :
    onByte b s = complete (latchStatus b s) := by
  rcases onByte_cases b s with h | h | h | h | h | h | h | h | h | h <;> simp_all [Phase.awaits]

theorem onByte_first (hp : s.phase = .awaitStatus) (hb : frameClass b ≠ .alone) :
    onByte b s = .next (goto .awaitData1 (latchStatus b s)) := by
  rcases onByte_cases b s with h | h | h | h | h | h | h | h | h | h <;> simp_all [Phase.awaits]

theorem onByte_id (hp : s.phase = .awaitData1) (hs : frameClass s.status = .sysex) :
    onByte b s = .next (goto .sysExAccumulate (latchData1 b s)) := by
  rcases onByte_cases b s with h | h | h | h | h | h | h | h | h | h <;> simp_all [Phase.awaits]

theorem onByte_oneData (hp : s.phase = .awaitData1) (hs : frameClass s.status = .oneData) :
    onByte b s = complete (latchData1 b s) := by
  rcases onByte_cases b s with h | h | h | h | h | h | h | h | h | h <;> simp_all [Phase.awaits]

theorem onByte_twoData (hp : s.phase = .awaitData1) (hs : frameClass s.status = .twoData) :
    onByte b s = .next (goto .awaitData2 (latchData1 b s)) := by
  rcases onByte_cases b s with h | h | h | h | h | h | h | h | h | h <;> simp_all [Phase.awaits]

theorem onByte_second (hp : s.phase = .awaitData2) : onByte b s = complete (latchData2 b s) := by
  rcases onByte_cases b s with h | h | h | h | h | h | h | h | h | h <;> simp_all [Phase.awaits]

theorem onByte_terminator (hp : s.phase = .sysExAccumulate) : onByte terminator s = complete s := by
  rcases onByte_cases terminator s with h | h | h | h | h | h | h | h | h | h <;> simp_all [Phase.awaits]

theorem onByte_append (hp : s.phase = .sysExAccumulate) (hb : b ≠ terminator)
    (hc : s.params.sysexCap ≠ some s.sxBuf.length) : onByte b s = .next (setBuf (s.sxBuf ++ [b]) s) := by
  rcases onByte_cases b s with h | h | h | h | h | h | h | h | h | h <;> simp_all [Phase.awaits]

theorem onByte_overflow (hp : s.phase = .sysExAccumulate) (hb : b ≠ terminator)
    (hc : s.params.sysexCap = some s.sxBuf.length) : onByte b s = .next (endRead RxResult.overflow s) := by
  rcases onByte_cases b s with h | h | h | h | h | h | h | h | h | h <;> simp_all [Phase.awaits]

end

theorem frameClass_sysex_iff : ∀ b : Byte, frameClass b = .sysex ↔ b = sysexStart := by decide

/-! ### One step that takes a byte -/

section
variable {s : State} {b : Byte} {rest : List Event}

theorem step_alone (hi : s.inputs = .byte b :: rest) (hp : s.phase = .awaitStatus) (hb : frameClass b = .alone) :
    step s = complete (latchStatus b { s with inputs := rest }) := by
  rw [step_cons hi]; exact onByte_alone (s := { s with inputs := rest }) hp hb

theorem step_first (hi : s.inputs = .byte b :: rest) (hp : s.phase = .awaitStatus) (hb : frameClass b ≠ .alone) :
    step s = .next (goto .awaitData1 (latchStatus b { s with inputs := rest })) := by
  rw [step_cons hi]; exact onByte_first (s := { s with inputs := rest }) hp hb

theorem step_id (hi : s.inputs = .byte b :: rest) (hp : s.phase = .awaitData1) (hs : frameClass s.status = .sysex) :
    step s = .next (goto .sysExAccumulate (latchData1 b { s with inputs := rest })) := by
  rw [step_cons hi]; exact onByte_id (s := { s with inputs := rest }) hp hs

theorem step_oneData (hi : s.inputs = .byte b :: rest) (hp : s.phase = .awaitData1)
    (hs : frameClass s.status = .oneData) : step s = complete (latchData1 b { s with inputs := rest }) := by
  rw [step_cons hi]; exact onByte_oneData (s := { s with inputs := rest }) hp hs

theorem step_twoData (hi : s.inputs = .byte b :: rest) (hp : s.phase = .awaitData1)
    (hs : frameClass s.status = .twoData) :
    step s = .next (goto .awaitData2 (latchData1 b { s with inputs := rest })) := by
  rw [step_cons hi]; exact onByte_twoData (s := { s with inputs := rest }) hp hs

theorem step_second (hi : s.inputs = .byte b :: rest) (hp : s.phase = .awaitData2) :
    step s = complete (latchData2 b { s with inputs := rest }) := by
  rw [step_cons hi]; exact onByte_second (s := { s with inputs := rest }) hp

theorem step_terminator (hi : s.inputs = .byte terminator :: rest) (hp : s.phase = .sysExAccumulate) :
    step s = complete { s with inputs := rest } := by
  rw [step_cons hi]; exact onByte_terminator (s := { s with inputs := rest }) hp

theorem step_append (hi : s.inputs = .byte b :: rest) (hp : s.phase = .sysExAccumulate) (hb : b ≠ terminator)
    (hc : s.params.sysexCap ≠ some s.sxBuf.length) :
    step s = .next (setBuf (s.sxBuf ++ [b]) { s with inputs := rest }) := by
  rw [step_cons hi]; exact onByte_append (s := { s with inputs := rest }) hp hb hc

theorem step_overflow (hi : s.inputs = .byte b :: rest) (hp : s.phase = .sysExAccumulate) (hb : b ≠ terminator)
    (hc : s.params.sysexCap = some s.sxBuf.length) :
    step s = .next (endRead RxResult.overflow { s with inputs := rest }) := by
  rw [step_cons hi]; exact onByte_overflow (s := { s with inputs := rest }) hp hb hc

end

/-! ### The placed instruction -/

/-- A state whose next event is the byte `b`, and which is `s` once it is taken. -/
def pending (b : Byte) (s : State) : State := { s with inputs := .byte b :: s.inputs }

theorem step_pending (b : Byte) (s : State) : step (pending b s) = onByte b s := by
  rw [step_cons (s := pending b s) (e := .byte b) (rest := s.inputs) rfl]; rfl

/-- `withFrame i` is the state after all of the frame but its last byte, with that byte pending. -/
theorem withFrame_eq (i : Instr) (s : State) (b : Byte) (taken : List Byte) (h : encode i = taken ++ [b]) :
    withFrame i s = pending b (afterBytes taken s) := by
  have hin : (afterBytes taken s).inputs = s.inputs := by
    unfold afterBytes
    dsimp only
    split <;> [rfl; rfl; (split <;> rfl)]
  unfold withFrame pending
  rw [h, hin]
  simp

/-- The step after `withFrame i` fetches and runs exactly `i`, from the state that a read operation under the filter of
`s` has then reached. -/
theorem step_withFrame (i : Instr) (s : State) :
    step (withFrame i s) = exec i (afterBytes (encode i).dropLast s) := by
  obtain ⟨st, d1, d2, data, he⟩ := encode_shape i
  have hop : opcodeOf st = i.opcode := by
    cases hc : i.opcode.frameClass <;> rw [hc] at he <;> exact opcodeOf_encode he
  have hfc : frameClass st = i.opcode.frameClass := by rw [frameClass_eq, hop]
  have hi := instrOf_encode i st d1 d2 data he
  cases hc : i.opcode.frameClass <;> rw [hc] at he hfc <;> dsimp only at he
  case alone =>
    rw [withFrame_eq i s st [] he, step_pending, he, ← hi, exec_alone hfc]
    exact onByte_alone rfl hfc
  case oneData =>
    rw [withFrame_eq i s d1 [st] he, step_pending, he, ← hi, exec_oneData hfc]
    exact onByte_oneData rfl hfc
  case twoData =>
    have hne : st ≠ sysexStart := fun h => by rw [(frameClass_sysex_iff st).2 h] at hfc; cases hfc
    have hab : afterBytes [st, d1] s = goto .awaitData2 (latchData1 d1 (latchStatus st (openRead s.filter s))) := if_neg hne
    rw [withFrame_eq i s d2 [st, d1] he, step_pending, he, ← hi, exec_twoData hfc]
    show onByte d2 (afterBytes [st, d1] s) = complete (latchData2 d2 (latchData1 d1 (latchStatus st (afterBytes [st, d1] s))))
    rw [hab]
    exact onByte_second rfl
  case sysex =>
    have heq := (frameClass_sysex_iff st).1 hfc
    have hab : afterBytes (st :: d1 :: data) s =
        goto .sysExAccumulate (setBuf data (latchData1 d1 (latchStatus st (openRead s.filter s)))) := if_pos heq
    have hd : (st :: d1 :: (data ++ [terminator])).dropLast = st :: d1 :: data := by
      simp [List.dropLast_cons_of_ne_nil]
    rw [withFrame_eq i s terminator (st :: d1 :: data) he, step_pending, he, hd, ← hi, exec_sysex hfc, hab]
    exact onByte_terminator rfl

end Sys2Proof.Machine
end

