-- ==== Sys2Proof/Laws/Tx.lean ====
section
/-! SUPPORT. What a step of the TX unit does, said once, and the laws of the outgoing byte sequence. -/

namespace Sys2Proof.Machine

/-! ### One step of the TX unit -/

section
variable {s : State} {rest : List Event}

/-- A command that validates loads the queue. -/
theorem step_send {c : Command} {m : Message} {bcast : Bool} (hi : s.inputs = .send c bcast :: rest)
    (hq : s.txQueue = []) (hv : validate c = .message m) :
    step s = .next (openSend (outBytes m bcast) { s with inputs := rest }) := by
  rw [step_cons hi]
  simp only [handle, onSend, hq, hv]

/-- A command with a field out of range. -/
theorem step_send_field {c : Command} {k : BitVec 2} {bcast : Bool} (hi : s.inputs = .send c bcast :: rest)
    (hq : s.txQueue = []) (hv : validate c = .invalidField k) :
    step s = .next (raiseTx (TxResult.invalidField k) { s with inputs := rest }) := by
  rw [step_cons hi]
  simp only [handle, onSend, hq, hv]

/-- A command with its channel out of range. -/
theorem step_send_channel {c : Command} {bcast : Bool} (hi : s.inputs = .send c bcast :: rest)
    (hq : s.txQueue = []) (hv : validate c = .invalidChannel) :
    step s = .next (raiseTx TxResult.invalidChannel { s with inputs := rest }) := by
  rw [step_cons hi]
  simp only [handle, onSend, hq, hv]

/-- The sink takes the head of the queue. -/
theorem step_sinkTake {b : Byte} {queued : List Byte} (hi : s.inputs = .sinkTake :: rest) (hq : s.txQueue = b :: queued) :
    step s = .next (takeByte b queued { s with inputs := rest }) := by
  rw [step_cons hi]
  simp only [handle, onSinkTake, hq]

end

/-! ### The counter and the byte sequence -/

/-- Counting on from a counted number is counting on. -/
theorem countTo_add (p : Params) (n k : Nat) : countTo p (countTo p n + k) = countTo p (n + k) := by
  unfold countTo
  cases p.countWidth with
  | none => rfl
  | some w => simp

theorem countTo_idem (p : Params) (n : Nat) : countTo p (countTo p n) = countTo p n := countTo_add p n 0

theorem countTo_fits (p : Params) (n : Nat) : fits (countTo p n) p.countWidth = true := by
  unfold countTo fits
  cases p.countWidth with
  | none => rfl
  | some w => simp [Nat.mod_lt]

/-- The field that a command is refused for is 1 or 2. -/
theorem validate_field {c : Command} {k : BitVec 2} (h : validate c = .invalidField k) : k = 1 ∨ k = 2 := by
  unfold validate at h
  split at h
  · next k' hk =>
    cases h
    unfold badField at hk
    split at hk <;> (repeat' split at hk) <;> simp_all
  · split at h <;> cases h

/-- A content has a first byte. -/
theorem content_ne_nil (m : Message) : m.content ≠ [] := by simp [Message.content]

/-- A send always has a byte to write. -/
theorem outBytes_ne_nil (m : Message) (bcast : Bool) : outBytes m bcast ≠ [] := by
  unfold outBytes
  split
  · exact content_ne_nil m
  · simp [allChannels, Message.content]

end Sys2Proof.Machine
end

