-- ==== Sys2Proof/Laws/Moves.lean ====
section
/-! SUPPORT. Everything one event can do to the block, said once: the provers take a step apart with `step_moves` and
unfold no transition function. -/

namespace Sys2Proof.Machine

/-- The state after the frame in the latches of `s` is complete. -/
def completed (s : State) : State :=
  endRead (resultOf s.filter (instrOf s.status s.data1 s.data2 s.sxBuf)) s

/-- `Moves s e t`: the event `e` is accepted in `s` and leads to `t`. One constructor per rule of the spec that moves a
unit. -/
inductive Moves (s : State) : Event → State → Prop where
  | reset : Moves s .reset (resetBlock s)
  | readStart (f : Filter) (hp : s.phase = .idle ∨ s.phase = .done) : Moves s (.readStart f) (openRead f s)
  | first (b : Byte) (hp : s.phase = .awaitStatus) (hc : frameClass b ≠ .alone) :
      Moves s (.byte b) (goto .awaitData1 (latchStatus b s))
  | alone (b : Byte) (hp : s.phase = .awaitStatus) (hc : frameClass b = .alone) :
      Moves s (.byte b) (completed (latchStatus b s))
  | id (b : Byte) (hp : s.phase = .awaitData1) (hc : frameClass s.status = .sysex) :
      Moves s (.byte b) (goto .sysExAccumulate (latchData1 b s))
  | oneData (b : Byte) (hp : s.phase = .awaitData1) (hc : frameClass s.status = .oneData) :
      Moves s (.byte b) (completed (latchData1 b s))
  | data1 (b : Byte) (hp : s.phase = .awaitData1) (hc : frameClass s.status ≠ .sysex ∧ frameClass s.status ≠ .oneData) :
      Moves s (.byte b) (goto .awaitData2 (latchData1 b s))
  | data2 (b : Byte) (hp : s.phase = .awaitData2) : Moves s (.byte b) (completed (latchData2 b s))
  | terminator (hp : s.phase = .sysExAccumulate) : Moves s (.byte terminator) (completed s)
  | overflow (b : Byte) (hp : s.phase = .sysExAccumulate) (hb : b ≠ terminator)
      (hc : s.params.sysexCap = some s.sxBuf.length) : Moves s (.byte b) (endRead RxResult.overflow s)
  | append (b : Byte) (hp : s.phase = .sysExAccumulate) (hb : b ≠ terminator)
      (hc : s.params.sysexCap ≠ some s.sxBuf.length) : Moves s (.byte b) (setBuf (s.sxBuf ++ [b]) s)
  | timeoutFirst (hp : s.phase = .awaitStatus) : Moves s .timeout (endRead (RxResult.noByte .streamTimeout) s)
  | endedFirst (hp : s.phase = .awaitStatus) : Moves s .ended (endRead (RxResult.noByte .streamEnded) s)
  | timeoutCut (hp : s.phase.awaits = true) (hs : s.phase ≠ .awaitStatus) :
      Moves s .timeout (endRead (RxResult.partialMessage .streamTimeout s.status) s)
  | endedCut (hp : s.phase.awaits = true) (hs : s.phase ≠ .awaitStatus) :
      Moves s .ended (endRead (RxResult.partialMessage .streamEnded s.status) s)
  | sendField (c : Command) (bcast : Bool) (k : BitVec 2) (hq : s.txQueue = []) (hv : validate c = .invalidField k) :
      Moves s (.send c bcast) (raiseTx (TxResult.invalidField k) s)
  | sendChannel (c : Command) (bcast : Bool) (hq : s.txQueue = []) (hv : validate c = .invalidChannel) :
      Moves s (.send c bcast) (raiseTx TxResult.invalidChannel s)
  | send (c : Command) (m : Message) (bcast : Bool) (hq : s.txQueue = []) (hv : validate c = .message m) :
      Moves s (.send c bcast) (openSend (outBytes m bcast) s)
  | sinkTake (b : Byte) (queued : List Byte) (hq : s.txQueue = b :: queued) : Moves s .sinkTake (takeByte b queued s)

theorem complete_completed (s : State) : complete s = .next (completed s) := complete_eq s

theorem onByte_moves {b : Byte} {s t : State} (h : onByte b s = .next t) : Moves s (.byte b) t := by
  rcases onByte_cases b s with ⟨-, h'⟩ | ⟨hp, hc, h'⟩ | ⟨hp, hc, h'⟩ | ⟨hp, hc, h'⟩ | ⟨hp, hc, h'⟩ | ⟨hp, hc, hc', h'⟩ |
    ⟨hp, h'⟩ | ⟨hp, hb, h'⟩ | ⟨hp, hb, hc, h'⟩ | ⟨hp, hb, hc, h'⟩ <;>
    rw [h', ] at h <;> (try rw [complete_completed] at h) <;> cases h
  · exact .alone b hp hc
  · exact .first b hp hc
  · exact .id b hp hc
  · exact .oneData b hp hc
  · exact .data1 b hp ⟨hc, hc'⟩
  · exact .data2 b hp
  · exact hb ▸ .terminator hp
  · exact .overflow b hp hb hc
  · exact .append b hp hb hc

/-- Inversion of `handle`: all that an event can do. -/
theorem handle_moves {e : Event} {s t : State} (h : handle e s = .next t) : Moves s e t := by
  cases e with
  | reset => cases h; exact .reset
  | readStart f =>
    simp only [handle, onReadStart_eq] at h
    split at h
    · next hp => cases h; exact .readStart f hp
    · cases h
  | byte b => exact onByte_moves h
  | timeout =>
    simp only [handle, onCut_eq] at h
    split at h
    · next hp => cases h; exact .timeoutFirst hp
    · next hn =>
      split at h
      · next hp => cases h; exact .timeoutCut hp hn
      · cases h
  | ended =>
    simp only [handle, onCut_eq] at h
    split at h
    · next hp => cases h; exact .endedFirst hp
    · next hn =>
      split at h
      · next hp => cases h; exact .endedCut hp hn
      · cases h
  | send c bcast =>
    simp only [handle, onSend] at h
    split at h
    · cases h
    · next hq =>
      split at h <;> cases h
      · next k hv => exact .sendField c bcast k hq hv
      · next hv => exact .sendChannel c bcast hq hv
      · next m hv => exact .send c m bcast hq hv
  | sinkTake =>
    simp only [handle, onSinkTake] at h
    split at h <;> cases h
    next b queued hq => exact .sinkTake b queued hq

/-- Inversion of `step`: with an event to come it is that event's move, else nothing happens. -/
theorem step_moves {s t : State} (h : step s = .next t) :
    (s.inputs = [] ∧ t = s) ∨ ∃ e rest, s.inputs = e :: rest ∧ Moves { s with inputs := rest } e t := by
  cases hi : s.inputs with
  | nil => rw [step_nil hi] at h; cases h; exact .inl ⟨rfl, rfl⟩
  | cons e rest => rw [step_cons hi] at h; exact .inr ⟨e, rest, rfl, handle_moves h⟩

end Sys2Proof.Machine
end

