-- ==== Sys2Proof/Laws/PerInstr.lean ====
section
/-! SUPPORT. A statement about every instruction as syntax, one lemma per constructor: the first byte of its frame selects
its own row of the opcode table, and the class of that byte is the length its format gives (spec/30_encoding.md R60,
R68, R76). -/

namespace Sys2Proof.Laws.FirstByte

/-- The frame of `i` begins with a byte that selects the row of `i`, and has the length of that byte's class. -/
def Statement (i : Instr) : Prop :=
  ∃ st rest, encode i = st :: rest ∧ opcodeOf st = i.opcode ∧
    match frameClass st with
    | .alone => rest.length = 0
    | .oneData => rest.length = 1
    | .twoData => rest.length = 2
    | .sysex => 2 ≤ rest.length

/-- The first bytes of each row, by their free bits. -/
theorem rows : (∀ c : WireChannel,
    (opcodeOf (statusOf 0x8 c) = .noteOff ∧ opcodeOf (statusOf 0x9 c) = .noteOn ∧
     opcodeOf (statusOf 0xA c) = .polyAt ∧ opcodeOf (statusOf 0xB c) = .ctrlChange) ∧
    (opcodeOf (statusOf 0xC c) = .progChange ∧ opcodeOf (statusOf 0xD c) = .chanAt ∧
     opcodeOf (statusOf 0xE c) = .pitchBend)) ∧
    (∀ x : Data7, opcodeOf (widen x) = .unrecData) ∧ (∀ x : BitVec 1, opcodeOf (0b1111001#7 ++ x) = .unrecF2F3) ∧
    (∀ x : BitVec 2, opcodeOf (0b111101#6 ++ x) = .unrecF4F7) ∧ (∀ x : BitVec 3, opcodeOf (0b11111#5 ++ x) = .unrecF8FF) := by
  decide

/-- A frame whose opcode is known has the class of that opcode. -/
theorem intro_of {i : Instr} {st : Byte} {rest : List Byte} (he : encode i = st :: rest) (ho : opcodeOf st = i.opcode)
    (hl : match i.opcode.frameClass with
      | .alone => rest.length = 0
      | .oneData => rest.length = 1
      | .twoData => rest.length = 2
      | .sysex => 2 ≤ rest.length) : Statement i :=
  ⟨st, rest, he, ho, by rw [frameClass_eq, ho]; exact hl⟩

theorem noteOff (c : WireChannel) (n v : Byte) : Statement (.noteOff c n v) := intro_of rfl (rows.1 c).1.1 rfl

theorem noteOn (c : WireChannel) (n v : Byte) : Statement (.noteOn c n v) := intro_of rfl (rows.1 c).1.2.1 rfl

theorem polyAt (c : WireChannel) (n p : Byte) : Statement (.polyAt c n p) := intro_of rfl (rows.1 c).1.2.2.1 rfl

theorem ctrlChange (c : WireChannel) (k v : Byte) : Statement (.ctrlChange c k v) := intro_of rfl (rows.1 c).1.2.2.2 rfl

theorem progChange (c : WireChannel) (w : Byte) : Statement (.progChange c w) := intro_of rfl (rows.1 c).2.1 rfl

theorem chanAt (c : WireChannel) (p : Byte) : Statement (.chanAt c p) := intro_of rfl (rows.1 c).2.2.1 rfl

theorem pitchBend (c : WireChannel) (l m : Byte) : Statement (.pitchBend c l m) := intro_of rfl (rows.1 c).2.2.2 rfl

theorem sysex (id : Byte) (data : List Byte) : Statement (.sysex id data) :=
  intro_of rfl (show opcodeOf sysexStart = .sysex by decide) (by simp [Instr.opcode, Opcode.frameClass])

theorem unrecData (x : Data7) (b1 b2 : Byte) : Statement (.unrecData x b1 b2) := intro_of rfl (rows.2.1 x) rfl

theorem unrecF1 : Statement .unrecF1 := intro_of rfl (by decide) rfl

theorem unrecF2F3 (x : BitVec 1) : Statement (.unrecF2F3 x) := intro_of rfl (rows.2.2.1 x) rfl

theorem unrecF4F7 (x : BitVec 2) : Statement (.unrecF4F7 x) := intro_of rfl (rows.2.2.2.1 x) rfl

theorem unrecF8FF (x : BitVec 3) : Statement (.unrecF8FF x) := intro_of rfl (rows.2.2.2.2 x) rfl

end Sys2Proof.Laws.FirstByte
end

