-- ==== Sys2Proof/Tests/Slice0.lean ====
section
/-! SUPPORT. Tests, each about one decoding, one instruction or one step, with the expected result taken from the rules'
encodings and from spec/95_test_vectors.md; then, for every obligation with hypotheses, a state and operands that meet
them. -/

namespace Sys2Proof.Tests

open Sys2Proof Sys2Proof.Machine

/-! ### Small states -/

def omni : Filter := ⟨true, 0⟩

/-- The filter that names one external channel (1 to 16) in the vectors' words: "only c". -/
def only (c : Nat) : Filter := ⟨false, BitVec.ofNat 4 (c - 1)⟩

/-- A read operation in phase `p` with these latches, buffer and events to come. -/
def reading (p : Phase) (st d1 : Byte) (buf : List Byte) (f : Filter) (ins : List Event) : State :=
  { State.reset with phase := p, status := st, data1 := d1, sxBuf := buf, filter := f, inputs := ins }

/-- A send operation with these bytes to go and this count. -/
def sending (queue : List Byte) (count : Nat) (ins : List Event) : State :=
  { State.reset with txQueue := queue, txCount := count, inputs := ins }

/-- The next state, if there is one. -/
def nextOf : Host.Outcome State Fault Refusal → Option State
  | .next t => some t
  | .fault _ => none
  | .refused _ => none

/-- The outcome record of a frame, decoded and run under a filter. -/
def received (f : Filter) (bs : List Byte) : Option RxResult :=
  match decode bs with
  | .instr i [] => (nextOf (exec i (reading .awaitStatus 0 0 [] f []))).map (·.result)
  | .instr _ (_ :: _) => none
  | .reject _ => none

def message (m : Message) : Option RxResult := some ⟨.message, .noCause, 0, .noCause, 0, some m⟩

def badField (k : BitVec 2) (st : Byte) : Option RxResult := some ⟨.error, .invalidField, k, .noCause, st, none⟩

def unrecognized (st : Byte) : Option RxResult := some ⟨.error, .unrecognizedStatus, 0, .noCause, st, none⟩

def filtered (st : Byte) : Option RxResult := some ⟨.noMessage, .channelFiltered, 0, .noCause, st, none⟩

/-- The bytes a command writes, if it is valid. -/
def written (c : Command) (bcast : Bool) : Option (List Byte) :=
  match validate c with
  | .message m => some (outBytes m bcast)
  | .invalidField _ => none
  | .invalidChannel => none

/-! ### Well-formed and legal -/

theorem test_wf_refuses_terminator_in_data : (Instr.sysex 1 [0x10, 0xF7]).wf = false := by decide
theorem test_wf_takes_any_other_data : (Instr.sysex 0xF7 [0xF0, 0xFF]).wf = true := by decide
theorem test_legal_refuses_field1 :
    [Instr.noteOff 0 128 0, .noteOn 0 128 0, .polyAt 0 128 0, .ctrlChange 0 128 0, .progChange 0 128, .chanAt 0 128,
     .pitchBend 0 128 0, .sysex 128 [1]].map Instr.legal = List.replicate 8 false := by decide
theorem test_legal_refuses_field2 :
    [Instr.noteOff 0 0 128, .noteOn 0 0 128, .polyAt 0 0 128, .ctrlChange 0 0 128, .pitchBend 0 0 128,
     .sysex 1 []].map Instr.legal = List.replicate 6 false := by decide
theorem test_legal_refuses_terminator_in_data : (Instr.sysex 1 [0xF7]).legal = false := by decide
theorem test_legal_refuses_unrecognized :
    [Instr.unrecData 0 0 0, .unrecF1, .unrecF2F3 0, .unrecF4F7 0, .unrecF8FF 0].map Instr.legal =
      List.replicate 5 false := by decide
theorem test_legal_takes_largest_fields :
    [Instr.noteOff 15 127 127, .progChange 15 127, .chanAt 15 127, .sysex 127 [0]].map Instr.legal =
      List.replicate 4 true := by decide

/-! ### Decoding, from the bit patterns of 42_channel_3byte.md to 45_unrecognized.md -/

theorem test_decode_noteOff : decode [0b10000100, 0b00001010, 0b01100100] = .instr (.noteOff 4 10 100) [] := by decide
theorem test_decode_noteOn : decode [0b10011111, 0b01111111, 0b00000001] = .instr (.noteOn 15 127 1) [] := by decide
theorem test_decode_polyAt : decode [0b10101111, 0b01111111, 0b00000001] = .instr (.polyAt 15 127 1) [] := by decide
theorem test_decode_ctrlChange : decode [0b10110001, 0b00000111, 0b01111111] = .instr (.ctrlChange 1 7 127) [] := by
  decide
theorem test_decode_progChange : decode [0b11001001, 0b00000000] = .instr (.progChange 9 0) [] := by decide
theorem test_decode_chanAt : decode [0b11010010, 0b01000000, 0x7F] = .instr (.chanAt 2 64) [0x7F] := by decide
theorem test_decode_pitchBend : decode [0b11100000, 0b00000000, 0b01000000] = .instr (.pitchBend 0 0 64) [] := by decide
theorem test_decode_sysex :
    decode [0b11110000, 0b00101011, 0b11111111, 0, 0b01111111, 0b00110110, 0b11110111] =
      .instr (.sysex 43 [255, 0, 127, 54]) [] := by decide
theorem test_decode_unrecData : decode [0b01000000, 0xB2, 0x07] = .instr (.unrecData 0x40 0xB2 0x07) [] := by decide
theorem test_decode_unrecF1 : decode [0b11110001, 0x90] = .instr .unrecF1 [0x90] := by decide
theorem test_decode_unrecF2F3 : decode [0b11110011] = .instr (.unrecF2F3 1) [] := by decide
theorem test_decode_unrecF4F7 : decode [0b11110110] = .instr (.unrecF4F7 2) [] := by decide
theorem test_decode_unrecF8FF : decode [0b11111110] = .instr (.unrecF8FF 6) [] := by decide
theorem test_decode_id_is_no_terminator : decode [0xF0, 0xF7, 0xF7] = .instr (.sysex 0xF7 []) [] := by decide
theorem test_decode_rejects_by_name :
    [decode [], decode [0x90], decode [0x90, 1], decode [0xF0, 1, 2]] =
      [.reject .noByte, .reject .missingData1, .reject .missingData2, .reject .unterminated] := by decide

/-- Each row's `match` byte, as an eight-bit table word, is that row's instruction. -/
theorem test_table_words :
    [0x80, 0x90, 0xA0, 0xB0, 0xC0, 0xD0, 0xE0, 0xF0, 0x00, 0xF1, 0xF2, 0xF4, 0xF8].map (decodeTableWord 8) =
      [some (.noteOff 0 0 0), some (.noteOn 0 0 0), some (.polyAt 0 0 0), some (.ctrlChange 0 0 0),
       some (.progChange 0 0), some (.chanAt 0 0), some (.pitchBend 0 0 0), some (.sysex 0 [0])] ++
      [some (.unrecData 0 0 0), some .unrecF1, some (.unrecF2F3 0), some (.unrecF4F7 0), some (.unrecF8FF 0)] := by
  decide

/-- The first step after reset runs the table word's instruction: the status latch and the outcome say which. -/
theorem test_table_words_run_first :
    [0x80, 0x90, 0xA0, 0xB0, 0xC0, 0xD0, 0xE0, 0xF0, 0x00, 0xF1, 0xF2, 0xF4, 0xF8].map (fun w =>
      (nextOf (step (State.reset.withFetchWord 8 w))).map fun t => (t.status, t.phase, t.result.outcome)) =
      [some (0x80, .done, .message), some (0x90, .done, .message), some (0xA0, .done, .message),
       some (0xB0, .done, .message), some (0xC0, .done, .message), some (0xD0, .done, .message),
       some (0xE0, .done, .message), some (0xF0, .done, .message)] ++
      [some (0x00, .done, .error), some (0xF1, .done, .error), some (0xF2, .done, .error), some (0xF4, .done, .error),
       some (0xF8, .done, .error)] := by decide

/-! ### Receiving: vectors V-3B, V-2B, V-SX, V-UN -/

theorem test_V_3B_2 : received omni [0x8F, 0x7F, 0x7F] = message (.noteOff 16 127 127) := by decide
theorem test_V_3B_4 : received omni [0x90, 0x3C, 0x01] = message (.noteOn 1 60 1) := by decide
theorem test_V_3B_5 : received omni [0x90, 0x3C, 0x00] = message (.noteOff 1 60 0) := by decide
theorem test_V_3B_9 : received omni [0xAF, 0x7F, 0x01] = message (.polyphonicAftertouch 16 127 1) := by decide
theorem test_V_3B_10 : received omni [0xB1, 0x07, 0x7F] = message (.controlChange 2 7 127) := by decide
theorem test_V_3B_12 : received omni [0xE0, 0x00, 0x40] = message (.pitchBend 1 0 64) := by decide
theorem test_V_3B_8 : received omni [0x90, 0xFF, 0xFF] = badField 1 0x90 := by decide
theorem test_V_3B_7 : received omni [0x90, 0x3C, 0x80] = badField 2 0x90 := by decide
theorem test_V_3B_14 : received (only 4) [0x93, 0x3C, 0x00] = message (.noteOff 4 60 0) := by decide
theorem test_V_3B_15 : received (only 5) [0x93, 0x3C, 0x00] = filtered 0x93 := by decide
theorem test_V_3B_16 : received (only 5) [0x93, 0x80, 0x00] = badField 1 0x93 := by decide
theorem test_V_2B_2 : received omni [0xCF, 0x7F] = message (.programChange 16 128) := by decide
theorem test_V_2B_4 : received omni [0xC0, 0x80] = badField 1 0xC0 := by decide
theorem test_V_2B_5 : received omni [0xD2, 0x40] = message (.channelAftertouch 3 64) := by decide
theorem test_V_2B_10 : received (only 5) [0xC5, 0x10] = filtered 0xC5 := by decide
theorem test_V_2B_11 : received (only 6) [0xC5, 0x10] = message (.programChange 6 17) := by decide
theorem test_V_SX_1 :
    received (only 9) [0xF0, 0x2B, 0xFF, 0x00, 0x7F, 0x36, 0xF7] = message (.sysEx 43 [255, 0, 127, 54]) := by decide
theorem test_V_SX_4 : received omni [0xF0, 0x2B, 0xF7] = badField 2 0xF0 := by decide
theorem test_V_SX_6 : received omni [0xF0, 0xF7, 0xF7] = badField 1 0xF0 := by decide
theorem test_V_UN_3 : received (only 3) [0x40, 0xB2, 0x07] = unrecognized 0x40 := by decide
theorem test_V_UN_5 :
    [0xF1, 0xF2, 0xF3, 0xF7, 0xF8, 0xFF].map (fun b => received omni [b]) =
      [unrecognized 0xF1, unrecognized 0xF2, unrecognized 0xF3, unrecognized 0xF7, unrecognized 0xF8,
       unrecognized 0xFF] := by decide

/-! ### Receiving: one step -/

/-- The trace of `E3 7F 00` (95_test_vectors.md 2.1), second byte: two registers change. -/
theorem test_trace_E3 :
    nextOf (step (reading .awaitData1 0xE3 0 [] omni [.byte 0x7F])) = some (reading .awaitData2 0xE3 0x7F [] omni []) := by
  decide

theorem test_V_L1_11 :
    (nextOf (step (reading .awaitStatus 0 0 [] omni [.timeout]))).map (·.result) =
      some ⟨.noMessage, .streamTimeout, 0, .noCause, 0, none⟩ := by decide

theorem test_V_UN_4 :
    (nextOf (step (reading .awaitData2 0x3C 0x64 [] omni [.timeout]))).map (·.result) =
      some ⟨.error, .partialMessage, 0, .streamTimeout, 0x3C, none⟩ := by decide

/-- V-SX-12: with `SYSEX_CAP` = 2 the third data byte overflows. -/
theorem test_V_SX_12 :
    (nextOf (step { reading .sysExAccumulate 0xF0 0x2B [1, 2] omni [.byte 3] with params := ⟨some 2, none⟩ })).map
      (fun t => (t.phase, t.sxBuf, t.result)) =
      some (.done, [1, 2], ⟨.error, .sysExOverflow, 0, .noCause, 0xF0, none⟩) := by decide

/-- V-SX-13: a full buffer followed by 0xF7 is no overflow. -/
theorem test_V_SX_13 :
    (nextOf (step { reading .sysExAccumulate 0xF0 0x2B [1, 2] omni [.byte 0xF7] with params := ⟨some 2, none⟩ })).map
      (·.result) = message (.sysEx 43 [1, 2]) := by decide

theorem test_byte_refused_when_idle : nextOf (step (reading .idle 0 0 [] omni [.byte 0x90])) = none := by decide

/-! ### Sending: vectors V-TX -/

theorem test_V_TX_1 : written ⟨.noteOff, 5, 10, 100, []⟩ false = some [0x84, 0x0A, 0x64] := by decide
theorem test_V_TX_2 : written ⟨.noteOn, 4, 60, 0, []⟩ false = some [0x93, 0x3C, 0x00] := by decide
theorem test_V_TX_3 : written ⟨.polyphonicAftertouch, 9, 1, 2, []⟩ false = some [0xA8, 0x01, 0x02] := by decide
theorem test_V_TX_4 : written ⟨.controlChange, 16, 127, 127, []⟩ false = some [0xBF, 0x7F, 0x7F] := by decide
theorem test_V_TX_6 : written ⟨.programChange, 16, 128, 0, []⟩ false = some [0xCF, 0x7F] := by decide
theorem test_V_TX_8 : written ⟨.pitchBend, 1, 0, 64, []⟩ false = some [0xE0, 0x00, 0x40] := by decide
theorem test_V_TX_10 : written ⟨.sysEx, 0, 125, 0, [0xF0]⟩ true = some [0xF0, 0x7D, 0xF0, 0xF7] := by decide
theorem test_V_TX_11 : written ⟨.channelAftertouch, 3, 64, 0, []⟩ true =
    some ([0xD0, 0x40, 0xD1, 0x40, 0xD2, 0x40, 0xD3, 0x40, 0xD4, 0x40, 0xD5, 0x40, 0xD6, 0x40, 0xD7, 0x40] ++
      [0xD8, 0x40, 0xD9, 0x40, 0xDA, 0x40, 0xDB, 0x40, 0xDC, 0x40, 0xDD, 0x40, 0xDE, 0x40, 0xDF, 0x40]) := by decide
theorem test_V_TX_13_to_20 :
    [validate ⟨.noteOn, 17, 60, 100, []⟩, validate ⟨.noteOn, 17, 200, 100, []⟩, validate ⟨.noteOff, 0, 10, 100, []⟩,
     validate ⟨.programChange, 1, 0, 0, []⟩, validate ⟨.programChange, 1, 129, 0, []⟩,
     validate ⟨.channelAftertouch, 1, 128, 0, []⟩, validate ⟨.sysEx, 0, 128, 0, [1]⟩, validate ⟨.sysEx, 0, 1, 0, []⟩,
     validate ⟨.sysEx, 0, 1, 0, [0x10, 0xF7]⟩] =
    [.invalidChannel, .invalidField 1, .invalidChannel, .invalidField 1, .invalidField 1, .invalidField 1,
     .invalidField 1, .invalidField 2, .invalidField 2] := by decide
theorem test_V_TX_21_22 :
    [written ⟨.sysEx, 99, 1, 0, [1]⟩ false, written ⟨.programChange, 1, 1, 255, []⟩ false] =
      [some [0xF0, 0x01, 0x01, 0xF7], some [0xC0, 0x00]] := by decide

/-- The trace of V-TX-5, its last step. -/
theorem test_trace_V_TX_5 :
    (nextOf (step { sending [0x00] 1 [.sinkTake] with sink := [0xC9] })).map
      (fun t => (t.txQueue, t.txCount, t.txResult, t.sink)) =
      some ([], 2, ⟨.sent, .noCause, 0, 2⟩, [0xC9, 0x00]) := by decide

/-- R95: a counter of `COUNT_W` = 4 bits wraps modulo 16. -/
theorem test_count_wraps :
    (nextOf (step { sending [0x00, 0x01] 15 [.sinkTake] with params := ⟨none, some 4⟩ })).map
      (fun t => (t.txQueue, t.txCount, t.txResult.outcome)) = some ([0x01], 0, .noOutcome) := by decide

/-! ### Witnesses: the hypotheses of each obligation are met -/

theorem witness_EveryFirstByteSelectsOneRow : decode (0x80 :: [0, 0]) = .instr (.noteOff 0 0 0) [] := by decide

theorem witness_DecodeOfEncode :
    (Instr.sysex 0xF7 [0xF6, 0xF8]).wf = true ∧ (Instr.noteOn 15 0xFF 0xFF).wf = true ∧ Instr.unrecF1.wf = true := by decide

theorem witness_EncodeOfDecode : decode [0xF0, 0xF7, 0xF7, 0x90] = .instr (.sysex 0xF7 []) [0x90] := by decide

theorem witness_OnlyIncompleteFramesAreRejected :
    decode [] = .reject .noByte ∧ decode [0xC0] = .reject .missingData1 ∧ decode [0xE0, 0xFF] = .reject .missingData2 ∧
    decode [0xF0] = .reject .missingData1 ∧ decode [0xF0, 0xF7] = .reject .unterminated := by decide

/-- One witness a clause, at both ends of each range. -/
theorem witness_FrameLengthByFirstByte :
    decode (0xC0 :: [1, 2]) = .instr (.progChange 0 1) [2] ∧ decode (0xDF :: [1, 2]) = .instr (.chanAt 15 1) [2] ∧
    decode (0x00 :: [1, 2]) = .instr (.unrecData 0 1 2) [] ∧ decode (0xBF :: [1, 2]) = .instr (.ctrlChange 15 1 2) [] ∧
    decode (0xE0 :: [1, 2]) = .instr (.pitchBend 0 1 2) [] ∧ decode (0xEF :: [1, 2]) = .instr (.pitchBend 15 1 2) [] ∧
    decode (0xF1 :: [1, 2]) = .instr .unrecF1 [1, 2] ∧ decode (0xFF :: [1, 2]) = .instr (.unrecF8FF 7) [1, 2] ∧
    decode (0xF0 :: [1, 2, 0xF7]) = .instr (.sysex 1 [2]) [] := by decide

/-- Every kind, at the ends of its ranges: for StatusByteOfMessage and ContentOfMessage. -/
theorem witness_valid_messages :
    [Message.noteOff 1 0 0, .noteOff 16 127 127, .noteOn 1 0 0, .noteOn 16 127 127, .polyphonicAftertouch 1 0 0,
     .polyphonicAftertouch 16 127 127, .controlChange 1 0 0, .controlChange 16 127 127].map Message.valid ++
    [Message.programChange 1 1, .programChange 16 128, .channelAftertouch 1 0, .channelAftertouch 16 127,
     .pitchBend 1 0 0, .pitchBend 16 127 127, .sysEx 0 [0], .sysEx 127 [0xF6, 0xF8]].map Message.valid =
      List.replicate 16 true := by decide

theorem witness_ProgramNumberRoundTrip :
    1 ≤ (16 : Channel).toNat ∧ (16 : Channel).toNat ≤ 16 ∧ 1 ≤ (128 : Byte).toNat ∧ (128 : Byte).toNat ≤ 128 ∧
    (reading .awaitStatus 0 0 [] omni []).filter.omni = true := by decide

/-- One witness a clause: SysEx, omni, the wanted channel, another channel. -/
theorem witness_FilterDecidesDelivery :
    ((Instr.sysex 0x7D [1]).legal = true ∧ encode (.sysex 0x7D [1]) = 0xF0 :: [0x7D, 1, 0xF7]) ∧
    ((Instr.noteOn 6 64 127).legal = true ∧ encode (.noteOn 6 64 127) = 0x96 :: [64, 127]) ∧ omni.omni = true ∧
    ((0x96 : Byte).toNat % 16 = (only 7).ch.toNat) ∧
    ((0x96 : Byte) ≠ 0xF0 ∧ (only 3).omni = false ∧ (0x96 : Byte).toNat % 16 ≠ (only 3).ch.toNat) := by decide

theorem witness_ErrorOutranksTheFilter :
    ((Instr.noteOn 3 0x80 0).wf = true ∧ (Instr.noteOn 3 0x80 0).legal = false) ∧
    ((Instr.sysex 1 []).wf = true ∧ (Instr.sysex 1 []).legal = false) ∧
    ((Instr.unrecF1).wf = true ∧ (Instr.unrecF1).legal = false) := by decide

/-- One witness a clause: 0xEF, 0xF0, 0xF1. -/
theorem witness_StatusByteDispatch (b : Byte) (_ : b = 0xEF ∨ b = 0xF0 ∨ b = 0xF1) :
    (reading .awaitStatus 0 0 [] omni [.byte b]).phase = .awaitStatus ∧
    (reading .awaitStatus 0 0 [] omni [.byte b]).inputs = .byte b :: [] := ⟨rfl, rfl⟩

theorem witness_NoFirstByteIsNoMessage :
    ((reading .awaitStatus 0 0 [] omni [.timeout]).phase = .awaitStatus ∧
      (reading .awaitStatus 0 0 [] omni [.timeout]).inputs = .timeout :: []) ∧
    ((reading .awaitStatus 0 0 [] omni [.ended]).phase = .awaitStatus ∧
      (reading .awaitStatus 0 0 [] omni [.ended]).inputs = .ended :: []) := by decide

/-- One witness a clause: SysEx, the ends of the two-byte range, its neighbours, and AwaitData2. -/
theorem witness_DataByteRouting (st : Byte) (_ : st = 0xF0 ∨ st = 0xC0 ∨ st = 0xDF ∨ st = 0xBF ∨ st = 0xE0) :
    ((reading .awaitData1 st 0 [] omni [.byte 0xFF]).inputs = .byte 0xFF :: [] ∧
      (reading .awaitData1 st 0 [] omni [.byte 0xFF]).phase = .awaitData1) ∧
    ((reading .awaitData2 0x90 60 [] omni [.byte 0xFF]).inputs = .byte 0xFF :: [] ∧
      (reading .awaitData2 0x90 60 [] omni [.byte 0xFF]).phase = .awaitData2) := ⟨⟨rfl, rfl⟩, ⟨rfl, rfl⟩⟩

theorem witness_CompletionAlgorithm :
    [0xF0, 0x00, 0x7F, 0x80, 0xBF, 0xC0, 0xDF, 0xE0, 0xEF].map (fun st : Byte =>
      decide ((reading .done st 0 [] omni []).status = 0xF0 ∨ (reading .done st 0 [] omni []).status.toNat / 16 ≠ 0xF)) =
      List.replicate 9 true ∧
    ((reading .awaitData1 0xC0 0 [] omni [.byte 0xFF]).inputs = .byte 0xFF :: [] ∧
      (reading .awaitData1 0xC0 0 [] omni [.byte 0xFF]).phase = .awaitData1 ∧ (0xC0 : Byte).toNat / 16 = 0xC ∧
      (0xDF : Byte).toNat / 16 = 0xD) ∧
    ((reading .awaitData2 0x90 0 [] omni [.byte 0xFF]).inputs = .byte 0xFF :: [] ∧
      (reading .awaitData2 0x90 0 [] omni [.byte 0xFF]).phase = .awaitData2) ∧
    ((reading .sysExAccumulate 0xF0 1 [] omni [.byte 0xF7]).inputs = .byte 0xF7 :: [] ∧
      (reading .sysExAccumulate 0xF0 1 [] omni [.byte 0xF7]).phase = .sysExAccumulate) := by decide

/-- The second clause of SysExReceived. -/
theorem witness_SysExReceived :
    (reading .sysExAccumulate 0xF0 1 [] omni [.byte 0xF7]).phase = .sysExAccumulate ∧
    (reading .sysExAccumulate 0xF0 1 [] omni [.byte 0xF7]).status = 0xF0 ∧
    (reading .sysExAccumulate 0xF0 1 [] omni [.byte 0xF7]).inputs = .byte 0xF7 :: [] := by decide

theorem witness_CutMessageIsPartial (p : Phase) (_ : p = .awaitData1 ∨ p = .awaitData2 ∨ p = .sysExAccumulate) :
    (reading p 0xF0 0 [] omni [.timeout]).phase = p ∧ (reading p 0xF0 0 [] omni [.timeout]).inputs = .timeout :: [] ∧
    (reading p 0xF0 0 [] omni [.ended]).phase = p ∧ (reading p 0xF0 0 [] omni [.ended]).inputs = .ended :: [] :=
  ⟨rfl, rfl, rfl, rfl⟩

/-- One witness a clause: the terminator, a full buffer, room for one more. -/
theorem witness_SysExByteLoop :
    let s := { reading .sysExAccumulate 0xF0 1 [2, 3] omni [.byte 0xF7] with params := ⟨some 2, none⟩ }
    let t := { reading .sysExAccumulate 0xF0 1 [2, 3] omni [.byte 0xF6] with params := ⟨some 2, none⟩ }
    let u := { reading .sysExAccumulate 0xF0 1 [2] omni [.byte 0xF8] with params := ⟨some 2, none⟩ }
    (s.phase = .sysExAccumulate ∧ s.inputs = .byte 0xF7 :: []) ∧
    (t.phase = .sysExAccumulate ∧ t.inputs = .byte 0xF6 :: [] ∧ t.params.sysexCap = some t.sxBuf.length) ∧
    (u.phase = .sysExAccumulate ∧ u.inputs = .byte 0xF8 :: [] ∧ u.params.sysexCap ≠ some u.sxBuf.length) := by decide

theorem witness_ReadStartOpensARead :
    ((reading .idle 0 0 [] omni [.readStart (only 3)]).phase = .idle ∧
      (reading .idle 0 0 [] omni [.readStart (only 3)]).inputs = .readStart (only 3) :: []) ∧
    ((reading .done 0 0 [] omni [.readStart omni]).phase = .done ∧
      (reading .done 0 0 [] omni [.readStart omni]).inputs = .readStart omni :: []) := by decide

/-- Accepted and not accepted, for each event that can be either. -/
theorem witness_ExactlyTheAcceptedEventsStep :
    [Event.reset, .readStart omni, .send ⟨.noteOn, 1, 60, 100, []⟩ true].map (accepts · (reading .done 0 0 [] omni [])) ++
      [Event.byte 0, .timeout, .ended].map (accepts · (reading .awaitData1 0x90 0 [] omni [])) ++
      [accepts .sinkTake (sending [1] 0 [])] = List.replicate 7 true ∧
    [Event.byte 0, .timeout, .ended, .sinkTake].map (accepts · (reading .done 0 0 [] omni [])) ++
      [accepts (.readStart omni) (reading .awaitStatus 0 0 [] omni []), accepts (.send ⟨.noteOn, 1, 60, 100, []⟩ false)
        (sending [1] 0 [])] = List.replicate 6 false ∧
    (reading .done 0 0 [] omni [.sinkTake]).inputs = .sinkTake :: [] := by decide

theorem witness_WaitingChangesNothing : State.reset.inputs = [] := rfl

/-- A read operation that has taken part of a frame meets the RX half of the invariant: one in each await phase. -/
theorem witness_RxInv :
    RxInv (reading .awaitStatus 0 0 [] omni [.byte 0xF1]) ∧ RxInv (reading .awaitData1 0xC0 0 [] omni [.byte 0xFF]) ∧
    RxInv (reading .awaitData2 0x90 0x3C [] omni [.byte 0xFF]) ∧
    RxInv (reading .sysExAccumulate 0xF0 0x2B [1, 2] omni [.byte 0xF7]) ∧
    RxInv (reading .sysExAccumulate 0xF0 0x2B [1, 2] omni [.byte 0xF6]) := by
  refine ⟨?_, ?_, ?_, ?_, ?_⟩ <;> constructor <;> decide

theorem witness_StepRunsTheDecodedInstruction :
    decode (frameSoFar (reading .awaitStatus 0 0 [] omni [.byte 0xF1]) ++ [0xF1]) = .instr .unrecF1 [] ∧
    decode (frameSoFar (reading .awaitData1 0xC0 0 [] omni [.byte 0xFF]) ++ [0xFF]) = .instr (.progChange 0 0xFF) [] ∧
    decode (frameSoFar (reading .awaitData2 0x90 0x3C [] omni [.byte 0xFF]) ++ [0xFF]) = .instr (.noteOn 0 0x3C 0xFF) [] ∧
    decode (frameSoFar (reading .sysExAccumulate 0xF0 0x2B [1, 2] omni [.byte 0xF7]) ++ [0xF7]) =
      .instr (.sysex 0x2B [1, 2]) [] ∧
    [Phase.awaitStatus, .awaitData1, .awaitData2, .sysExAccumulate].map Phase.awaits = List.replicate 4 true := by decide

theorem witness_StepKeepsAnUnfinishedFrame :
    decode (frameSoFar (reading .awaitStatus 0 0 [] omni [.byte 0x90]) ++ [0x90]) = .reject .missingData1 ∧
    decode (frameSoFar (reading .sysExAccumulate 0xF0 0x2B [1, 2] omni [.byte 0xF6]) ++ [0xF6]) = .reject .unterminated ∧
    (reading .sysExAccumulate 0xF0 0x2B [1, 2] omni [.byte 0xF6]).params.sysexCap ≠ some [1, 2].length := by decide

/-- A SysEx frame that just fits a buffer of two bytes. -/
theorem witness_ReadingAFrameRunsItsInstruction :
    let s := { reading .awaitStatus 0 0 [] omni ((encode (.sysex 1 [2, 3])).map .byte) with params := ⟨some 2, none⟩ }
    (Instr.sysex 1 [2, 3]).wf = true ∧ s.phase = .awaitStatus ∧ s.sxBuf = [] ∧
    s.inputs = (encode (.sysex 1 [2, 3])).map .byte ++ [] ∧
    ∀ id data cap, Instr.sysex 1 [2, 3] = .sysex id data → s.params.sysexCap = some cap → data.length ≤ cap := by
  refine ⟨rfl, rfl, rfl, rfl, ?_⟩
  rintro id data cap ⟨⟩ ⟨⟩
  decide

/-- Both arms of the result: the re-tagged NoteOn, and a SysEx that just fits. -/
theorem witness_ReceivingContentDeliversTheMessage :
    let s := reading .awaitStatus 0 0 [] omni ((Message.noteOn 4 60 0).content.map .byte)
    let t := { reading .awaitStatus 0 0 [] omni ((Message.sysEx 1 [2, 3]).content.map .byte) with params := ⟨some 2, none⟩ }
    ((Message.noteOn 4 60 0).valid = true ∧ s.phase = .awaitStatus ∧ s.sxBuf = [] ∧ s.filter.omni = true ∧
      s.inputs = (Message.noteOn 4 60 0).content.map .byte ++ [] ∧
      ∀ id data cap, Message.noteOn 4 60 0 = .sysEx id data → s.params.sysexCap = some cap → data.length ≤ cap) ∧
    ((Message.sysEx 1 [2, 3]).valid = true ∧ t.phase = .awaitStatus ∧ t.sxBuf = [] ∧ t.filter.omni = true ∧
      t.inputs = (Message.sysEx 1 [2, 3]).content.map .byte ++ [] ∧
      ∀ id data cap, Message.sysEx 1 [2, 3] = .sysEx id data → t.params.sysexCap = some cap → data.length ≤ cap) := by
  refine ⟨⟨rfl, rfl, rfl, rfl, rfl, ?_⟩, ⟨rfl, rfl, rfl, rfl, rfl, ?_⟩⟩
  · rintro id data cap ⟨⟩
  · rintro id data cap ⟨⟩ ⟨⟩
    decide

theorem witness_DeliveredMessageHasTheContentRead :
    ∃ t, exec (.noteOn 0 60 1) (reading .awaitStatus 0 0 [] omni []) = .next t ∧
      t.result.msg = some (.noteOn 1 60 1) ∧ t.result.outcome = .message ∧ ∀ c n, Instr.noteOn 0 60 1 ≠ .noteOn c n 0 := by
  refine ⟨_, rfl, by decide, by decide, ?_⟩
  rintro c n ⟨⟩

theorem witness_SysExLoopCollectsEveryByte :
    let s := reading .sysExAccumulate 0xF0 1 [] omni [.byte 0xF0, .byte 0xF6, .byte 0xF8]
    (0xF7 : Byte) ∉ [(0xF0 : Byte), 0xF6, 0xF8] ∧ s.phase = .sysExAccumulate ∧ s.params.sysexCap = none ∧
    s.inputs = [(0xF0 : Byte), 0xF6, 0xF8].map .byte ++ [] := by decide

theorem witness_StrayDataByteCostsThree (b : Byte) (_ : b = 0x00 ∨ b = 0x7F) :
    b.toNat ≤ 127 ∧ (reading .awaitStatus 0 0 [] omni [.byte b, .byte 0x90, .byte 0xF7]).phase = .awaitStatus ∧
    (reading .awaitStatus 0 0 [] omni [.byte b, .byte 0x90, .byte 0xF7]).inputs = .byte b :: .byte 0x90 :: .byte 0xF7 :: [] := by
  refine ⟨?_, rfl, rfl⟩
  rcases ‹b = 0x00 ∨ b = 0x7F› with rfl | rfl <;> decide

/-- One witness a clause, at the ends of the ranges: field 1, field 2, channel, valid. -/
theorem witness_ValidationOrder :
    [validate ⟨.noteOn, 1, 128, 255, []⟩, validate ⟨.programChange, 0, 0, 0, []⟩, validate ⟨.programChange, 0, 129, 0, []⟩,
     validate ⟨.noteOn, 0, 127, 128, []⟩, validate ⟨.sysEx, 0, 127, 0, []⟩, validate ⟨.noteOn, 0, 127, 127, []⟩,
     validate ⟨.noteOn, 17, 127, 127, []⟩, validate ⟨.noteOn, 16, 127, 127, []⟩, validate ⟨.programChange, 1, 128, 255, []⟩] =
    [.invalidField 1, .invalidField 1, .invalidField 1, .invalidField 2, .invalidField 2, .invalidChannel, .invalidChannel,
     .message (.noteOn 16 127 127), .message (.programChange 1 128)] := by decide

/-- A valid command of each kind: for PlainSendBytes, ValidSendLoadsTheQueue and SendDeliversTheWholeSequence. -/
theorem witness_valid_commands :
    [validate ⟨.noteOff, 1, 0, 127, []⟩, validate ⟨.noteOn, 16, 127, 0, []⟩, validate ⟨.polyphonicAftertouch, 9, 1, 2, []⟩,
     validate ⟨.controlChange, 16, 127, 127, []⟩, validate ⟨.programChange, 1, 1, 0, []⟩,
     validate ⟨.channelAftertouch, 3, 64, 0, []⟩, validate ⟨.pitchBend, 1, 0, 64, []⟩, validate ⟨.sysEx, 99, 0, 0, [0xF0]⟩] =
    [.message (.noteOff 1 0 127), .message (.noteOn 16 127 0), .message (.polyphonicAftertouch 9 1 2),
     .message (.controlChange 16 127 127), .message (.programChange 1 1), .message (.channelAftertouch 3 64),
     .message (.pitchBend 1 0 64), .message (.sysEx 0 [0xF0])] := by decide

theorem witness_BroadcastRepeatsTheFrame :
    (Message.sysEx 1 [2]).tag = .sysEx ∧ (Message.programChange 1 1).tag ≠ .sysEx := by decide

theorem witness_ValidSendLoadsTheQueue :
    let c : Command := ⟨.programChange, 10, 1, 0, []⟩
    (sending [] 7 [.send c true]).txQueue = [] ∧ (sending [] 7 [.send c true]).inputs = .send c true :: [] ∧
    validate c = .message (.programChange 10 1) := by decide

theorem witness_InvalidSendWritesNothing :
    let c : Command := ⟨.noteOn, 17, 60, 128, []⟩
    let d : Command := ⟨.noteOn, 17, 60, 127, []⟩
    ((sending [] 7 [.send c true]).txQueue = [] ∧ (sending [] 7 [.send c true]).inputs = .send c true :: [] ∧
      validate c = .invalidField 2) ∧
    ((sending [] 7 [.send d true]).txQueue = [] ∧ (sending [] 7 [.send d true]).inputs = .send d true :: [] ∧
      validate d = .invalidChannel) := by decide

/-- The last byte and a byte before it. -/
theorem witness_SinkTakesTheHead :
    (sending [0xC9, 0x00] 0 [.sinkTake]).txQueue = 0xC9 :: [0x00] ∧
    (sending [0xC9, 0x00] 0 [.sinkTake]).inputs = .sinkTake :: [] ∧ (sending [0x00] 1 [.sinkTake]).txQueue = 0x00 :: [] ∧
    (sending [0x00] 1 [.sinkTake]).inputs = .sinkTake :: [] := by decide

theorem witness_SendDeliversTheWholeSequence :
    let c : Command := ⟨.programChange, 10, 1, 0, []⟩
    let s := sending [] 7 [.send c false, .sinkTake, .sinkTake]
    s.txQueue = [] ∧ validate c = .message (.programChange 10 1) ∧
    s.inputs = .send c false :: List.replicate (outBytes (.programChange 10 1) false).length .sinkTake ++ [] := by decide

theorem witness_ResetFromEveryState :
    (reading .sysExAccumulate 0xF0 1 [2] omni [.reset, .byte 3]).inputs = .reset :: [.byte 3] := rfl

/-- Both units in the middle of an operation, and a step of each. -/
theorem witness_EveryStepKeepsTheInvariant :
    let s := { reading .awaitData1 0x90 0 [] omni [.byte 0x3C] with txQueue := [1, 2], txCount := 3 }
    let t := { reading .awaitData1 0x90 0 [] omni [.sinkTake] with txQueue := [1, 2], txCount := 3 }
    Inv s ∧ (∃ s', step s = .next s') ∧ Inv t ∧ ∃ t', step t = .next t' := by
  refine ⟨⟨?_, ?_⟩, ⟨_, rfl⟩, ⟨?_, ?_⟩, ⟨_, rfl⟩⟩ <;> constructor <;> decide

theorem witness_UnitsShareNoState :
    ((reading .awaitData1 0x90 0 [] omni [.byte 60]).inputs = .byte 60 :: [] ∧ (Event.byte 60).isRx = true ∧
      ∃ t, step (reading .awaitData1 0x90 0 [] omni [.byte 60]) = .next t) ∧
    ((sending [1] 0 [.sinkTake]).inputs = .sinkTake :: [] ∧ Event.sinkTake.isTx = true ∧
      ∃ t, step (sending [1] 0 [.sinkTake]) = .next t) := ⟨⟨rfl, rfl, _, rfl⟩, ⟨rfl, rfl, _, rfl⟩⟩

/-- One step a clause: each register does change somewhere. -/
theorem witness_RegistersChangeOnlyWhereTheSpecSays :
    (∃ t, step (reading .awaitStatus 0 0 [] omni [.byte 0x90]) = .next t ∧ t.status ≠ 0) ∧
    (∃ t, step (reading .awaitData1 0x90 0 [] omni [.byte 60]) = .next t ∧ t.data1 ≠ 0) ∧
    (∃ t, step (reading .awaitData2 0x90 60 [] omni [.byte 100]) = .next t ∧ t.data2 ≠ 0 ∧ t.result ≠ State.reset.result) ∧
    (∃ t, step (reading .sysExAccumulate 0xF0 1 [] omni [.byte 2]) = .next t ∧ t.sxBuf ≠ []) ∧
    (∃ t, step (reading .done 0xF0 1 [2] omni [.readStart (only 3)]) = .next t ∧ t.sxBuf ≠ [2] ∧ t.filter ≠ omni) :=
  ⟨⟨_, rfl, by decide⟩, ⟨_, rfl, by decide⟩, ⟨_, rfl, by decide, by decide⟩, ⟨_, rfl, by decide⟩,
    ⟨_, rfl, by decide, by decide⟩⟩

/-- One accepted event a clause of PhaseAdvances. -/
theorem witness_PhaseAdvances :
    (∃ t, step (reading .awaitStatus 0 0 [] omni [.byte 0xF1]) = .next t) ∧
    (∃ t, step (reading .awaitData1 0xF0 0 [] omni [.byte 0xF7]) = .next t) ∧
    (∃ t, step (reading .awaitData2 0x90 0 [] omni [.byte 0]) = .next t) ∧
    (∃ t, step (reading .sysExAccumulate 0xF0 0 [] omni [.byte 0xF7]) = .next t) ∧
    (∃ t, step (reading .sysExAccumulate 0xF0 0 [] omni [.timeout]) = .next t) ∧
    (∃ t, step (reading .awaitStatus 0xF0 0 [] omni [.ended]) = .next t) ∧
    (∃ t, step (reading .awaitStatus 0xF0 0 [] omni [.reset]) = .next t) ∧
    (∃ t, step (reading .done 0xF0 0 [] omni [.readStart omni]) = .next t) ∧
    (∃ t, step (reading .done 0 0 [] omni [.send ⟨.programChange, 1, 1, 0, []⟩ false]) = .next t) ∧
    (∃ t, step (sending [1] 0 [.sinkTake]) = .next t) :=
  ⟨⟨_, rfl⟩, ⟨_, rfl⟩, ⟨_, rfl⟩, ⟨_, rfl⟩, ⟨_, rfl⟩, ⟨_, rfl⟩, ⟨_, rfl⟩, ⟨_, rfl⟩, ⟨_, rfl⟩, ⟨_, rfl⟩⟩

/-- Two blocks that differ in every register, given the same whole read. -/
theorem witness_ReadOwesNothingToTheOneBefore :
    let answers : List Event := [.byte 0xC0, .byte 5]
    let s := reading .idle 0 0 [] omni (.readStart omni :: answers)
    let t := { reading .done 0xF0 0x2B [1] (only 3) (.readStart omni :: answers) with txQueue := [1], txCount := 2 }
    (s.phase = .idle ∨ s.phase = .done) ∧ (t.phase = .idle ∨ t.phase = .done) ∧
    s.params.sysexCap = t.params.sysexCap ∧ (∀ e ∈ answers, e.isAnswer = true) ∧ s.inputs = .readStart omni :: answers ∧
    t.inputs = .readStart omni :: answers ∧ ∃ s', run (2 + 1) s = .next s' ∧ s'.result.msg = some (.programChange 1 6) :=
  ⟨.inl rfl, .inr rfl, rfl, by decide, rfl, rfl, _, rfl, by decide⟩

/-- An event that steps, one that writes a byte, and one that is refused. -/
theorem witness_StepIsTheBlockStepOnTheNextEvent :
    ((reading .awaitData1 0x90 0 [] omni [.byte 60, .timeout]).inputs = .byte 60 :: [.timeout]) ∧
    ((sending [0xC9, 0x00] 0 [.sinkTake]).inputs = .sinkTake :: []) ∧
    ((reading .idle 0 0 [] omni [.byte 60]).inputs = .byte 60 :: []) := by decide

end Sys2Proof.Tests
end

section
/-! The events to come and the sink's contents beside a step (spec/00_scope.md R5, R9; 10_state.md R10): every operation
commutes with placing the block in another outside, so a step is `blockStep` on the registers and the next event. -/

namespace Sys2Proof.Machine

/-! ### A state in another outside -/

/-- `s` where the events to come are `rest` and the sink held `before` ahead of what `s` says it has taken. -/
def State.inOutside (rest : List Event) (before : List Byte) (s : State) : State :=
  { s with inputs := rest, sink := before ++ s.sink }

/-- An outcome with its next state changed by `f`; a stop stays as it is. -/
def mapNext (f : State → State) : Host.Outcome State Fault Refusal → Host.Outcome State Fault Refusal
  | .next t => .next (f t)
  | .fault r => .fault r
  | .refused r => .refused r

/-- A state is its registers and parameters, placed in its own outside. -/
theorem inOutside_registers (rest : List Event) (s : State) :
    State.inOutside rest s.sink { toBlock := s.toBlock, params := s.params, inputs := [], sink := [] } =
      { s with inputs := rest } := by
  simp only [State.inOutside, List.append_nil]

/-- Taking a byte adds it after whatever the sink holds. -/
theorem takeByte_inOutside (b : Byte) (queued : List Byte) (rest : List Event) (before : List Byte) (s : State) :
    takeByte b queued (s.inOutside rest before) = (takeByte b queued s).inOutside rest before := by
  cases queued <;> simp [takeByte, memWrite, State.inOutside]

/-! ### Every operation commutes with the outside -/

section
variable (rest : List Event) (before : List Byte) (s : State)

@[simp] theorem inOutside_phase : (s.inOutside rest before).phase = s.phase := rfl
@[simp] theorem inOutside_status : (s.inOutside rest before).status = s.status := rfl
@[simp] theorem inOutside_txQueue : (s.inOutside rest before).txQueue = s.txQueue := rfl
@[simp] theorem bufFull_inOutside : bufFull (s.inOutside rest before) = bufFull s := rfl

theorem complete_inOutside :
    complete (s.inOutside rest before) = mapNext (State.inOutside rest before) (complete s) := by
  rw [complete_eq, complete_eq]; rfl

theorem byteAtStatus_inOutside (b : Byte) :
    byteAtStatus b (s.inOutside rest before) = mapNext (State.inOutside rest before) (byteAtStatus b s) := by
  unfold byteAtStatus
  split
  · rfl
  · split
    · exact complete_inOutside rest before (latchStatus b s)
    · rfl

theorem byteAtData1_inOutside (b : Byte) :
    byteAtData1 b (s.inOutside rest before) = mapNext (State.inOutside rest before) (byteAtData1 b s) := by
  unfold byteAtData1
  rw [inOutside_status]
  split
  · rfl
  · split
    · exact complete_inOutside rest before (latchData1 b s)
    · rfl

theorem byteAtSysEx_inOutside (b : Byte) :
    byteAtSysEx b (s.inOutside rest before) = mapNext (State.inOutside rest before) (byteAtSysEx b s) := by
  unfold byteAtSysEx
  rw [bufFull_inOutside]
  split
  · exact complete_inOutside rest before s
  · split <;> rfl

theorem onByte_inOutside (b : Byte) :
    onByte b (s.inOutside rest before) = mapNext (State.inOutside rest before) (onByte b s) := by
  unfold onByte
  rw [inOutside_phase]
  cases s.phase with
  | idle => rfl
  | done => rfl
  | awaitStatus => exact byteAtStatus_inOutside rest before s b
  | awaitData1 => exact byteAtData1_inOutside rest before s b
  | awaitData2 => exact complete_inOutside rest before (latchData2 b s)
  | sysExAccumulate => exact byteAtSysEx_inOutside rest before s b

theorem onReadStart_inOutside (f : Filter) :
    onReadStart f (s.inOutside rest before) = mapNext (State.inOutside rest before) (onReadStart f s) := by
  rw [onReadStart_eq, onReadStart_eq, inOutside_phase]
  split <;> rfl

theorem onCut_inOutside (e : Event) (reason : Cause) :
    onCut e reason (s.inOutside rest before) = mapNext (State.inOutside rest before) (onCut e reason s) := by
  unfold onCut
  rw [inOutside_phase]
  cases s.phase <;> rfl

theorem onSend_inOutside (c : Command) (bcast : Bool) :
    onSend c bcast (s.inOutside rest before) = mapNext (State.inOutside rest before) (onSend c bcast s) := by
  unfold onSend
  rw [inOutside_txQueue]
  cases s.txQueue with
  | cons => rfl
  | nil => cases validate c <;> rfl

theorem onSinkTake_inOutside :
    onSinkTake (s.inOutside rest before) = mapNext (State.inOutside rest before) (onSinkTake s) := by
  unfold onSinkTake
  rw [inOutside_txQueue]
  cases s.txQueue with
  | nil => rfl
  | cons b queued => exact congrArg Host.Outcome.next (takeByte_inOutside b queued rest before s)

/-- No event reads the events after it or the sink: handled in another outside it does the same there. -/
theorem handle_inOutside (e : Event) :
    handle e (s.inOutside rest before) = mapNext (State.inOutside rest before) (handle e s) := by
  cases e with
  | reset => rfl
  | readStart f => exact onReadStart_inOutside rest before s f
  | byte b => exact onByte_inOutside rest before s b
  | timeout => exact onCut_inOutside rest before s .timeout .streamTimeout
  | ended => exact onCut_inOutside rest before s .ended .streamEnded
  | send c bcast => exact onSend_inOutside rest before s c bcast
  | sinkTake => exact onSinkTake_inOutside rest before s

end

/-! ### The parameters -/

/-- No event changes the OPEN parameters (00_scope.md R4). -/
theorem Moves.params_eq {s t : State} {e : Event} (h : Moves s e t) : t.params = s.params := by
  cases h <;> simp [completed]

/-! ### The statement -/

/-- Settles O54: the next event's step on the bare registers, carried into the outside of `s` by `handle_inOutside`. -/
theorem stepIsTheBlockStepOnTheNextEvent : Obligations.StepIsTheBlockStepOnTheNextEvent := by
  intro s e rest hi
  rw [step_cons hi, ← inOutside_registers, handle_inOutside, blockStep]
  cases h : handle e { toBlock := s.toBlock, params := s.params, inputs := [], sink := [] } with
  | next t =>
    have hparams : t.params = s.params := (handle_moves h).params_eq
    simp only [mapNext, State.inOutside, hparams]
  | fault r => rfl
  | refused r => rfl

end Sys2Proof.Machine
end

section
/-! How one event moves the registers (spec/10_state.md R10 to R23, R31): which events have a step, what each unit leaves
alone, where each RX register changes, how `phase` advances, and that every step keeps the invariant. -/

namespace Sys2Proof.Machine

/-! ### The state after a completed frame -/

section
variable (s : State)

@[simp] theorem completed_phase : (completed s).phase = .done := rfl
@[simp] theorem completed_status : (completed s).status = s.status := rfl
@[simp] theorem completed_data1 : (completed s).data1 = s.data1 := rfl
@[simp] theorem completed_data2 : (completed s).data2 = s.data2 := rfl
@[simp] theorem completed_sxBuf : (completed s).sxBuf = s.sxBuf := rfl
@[simp] theorem completed_filter : (completed s).filter = s.filter := rfl
@[simp] theorem completed_txQueue : (completed s).txQueue = s.txQueue := rfl
@[simp] theorem completed_txCount : (completed s).txCount = s.txCount := rfl
@[simp] theorem completed_txResult : (completed s).txResult = s.txResult := rfl
@[simp] theorem completed_inputs : (completed s).inputs = s.inputs := rfl
@[simp] theorem completed_sink : (completed s).sink = s.sink := rfl

end

/-! ### Acceptance -/

/-- The four await phases, by name. -/
theorem awaits_iff (p : Phase) :
    p.awaits = true ↔ p = .awaitStatus ∨ p = .awaitData1 ∨ p = .awaitData2 ∨ p = .sysExAccumulate := by
  cases p <;> decide

section
variable {s : State}

theorem onByte_of_awaits (b : Byte) (hp : s.phase.awaits = true) : ∃ t, onByte b s = .next t := by
  rcases onByte_cases b s with ⟨hn, -⟩ | ⟨-, -, h⟩ | ⟨-, -, h⟩ | ⟨-, -, h⟩ | ⟨-, -, h⟩ | ⟨-, -, -, h⟩ | ⟨-, h⟩ | ⟨-, -, h⟩ |
    ⟨-, -, -, h⟩ | ⟨-, -, -, h⟩
  · rw [hp] at hn; cases hn
  all_goals simp [h, complete_completed]

theorem onByte_of_not_awaits (b : Byte) (hp : s.phase.awaits = false) :
    onByte b s = .refused (.eventNotAccepted (.byte b)) := by
  cases h : s.phase with
  | idle | done => simp only [onByte, h]
  | awaitStatus | awaitData1 | awaitData2 | sysExAccumulate => rw [h] at hp; cases hp

theorem onCut_of_awaits (e : Event) (reason : Cause) (hp : s.phase.awaits = true) : ∃ t, onCut e reason s = .next t := by
  rw [onCut_eq, if_pos hp]
  split <;> exact ⟨_, rfl⟩

theorem onCut_of_not_awaits (e : Event) (reason : Cause) (hp : s.phase.awaits = false) :
    onCut e reason s = .refused (.eventNotAccepted e) := by
  have hs : s.phase ≠ .awaitStatus := fun h => by rw [h] at hp; cases hp
  rw [onCut_eq, if_neg hs, if_neg (Bool.eq_false_iff.1 hp)]

theorem onSend_of_empty (c : Command) (bcast : Bool) (hq : s.txQueue = []) : ∃ t, onSend c bcast s = .next t := by
  simp only [onSend, hq]
  cases validate c <;> exact ⟨_, rfl⟩

/-- An accepted event has a step (10_state.md R31). -/
theorem handle_of_accepts {e : Event} (h : accepts e s = true) : ∃ t, handle e s = .next t := by
  cases e with
  | reset => exact ⟨_, rfl⟩
  | readStart f =>
    have hp : s.phase = .idle ∨ s.phase = .done := by simpa [accepts] using h
    exact ⟨_, (onReadStart_eq f s).trans (if_pos hp)⟩
  | byte b => exact onByte_of_awaits b h
  | timeout => exact onCut_of_awaits .timeout .streamTimeout h
  | ended => exact onCut_of_awaits .ended .streamEnded h
  | send c bcast => exact onSend_of_empty c bcast (List.isEmpty_iff.1 h)
  | sinkTake =>
    cases hq : s.txQueue with
    | nil => simp [accepts, hq] at h
    | cons b queued => exact ⟨takeByte b queued s, by simp only [handle, onSinkTake, hq]⟩

/-- An event that is not accepted is refused by name (10_state.md R31; log 5). -/
theorem handle_of_not_accepts {e : Event} (h : accepts e s = false) : handle e s = .refused (.eventNotAccepted e) := by
  cases e with
  | reset => cases h
  | readStart f =>
    have hp : ¬(s.phase = .idle ∨ s.phase = .done) := by simpa [accepts] using h
    exact (onReadStart_eq f s).trans (if_neg hp)
  | byte b => exact onByte_of_not_awaits b h
  | timeout => exact onCut_of_not_awaits .timeout .streamTimeout h
  | ended => exact onCut_of_not_awaits .ended .streamEnded h
  | send c bcast =>
    cases hq : s.txQueue with
    | nil => simp [accepts, hq] at h
    | cons b queued => simp only [handle, onSend, hq]
  | sinkTake =>
    have hq : s.txQueue = [] := by simpa [accepts] using h
    simp only [handle, onSinkTake, hq]

end

/-- Acceptance is exactly that the event has a step. -/
theorem accepts_iff_handle (e : Event) (s : State) : accepts e s = true ↔ ∃ t, handle e s = .next t := by
  refine ⟨handle_of_accepts, fun ⟨t, ht⟩ => ?_⟩
  by_contra hn
  rw [handle_of_not_accepts (Bool.eq_false_iff.2 hn)] at ht
  cases ht

/-- Settles O27: acceptance as R31 words it is `accepts`, which decides between a step and the refusal. -/
theorem exactlyTheAcceptedEventsStep : Obligations.ExactlyTheAcceptedEventsStep := by
  intro s e rest hi awaiting accepted
  have hacc : accepted ↔ accepts e { s with inputs := rest } = true := by
    cases e with
    | reset => exact ⟨fun _ => rfl, fun _ => trivial⟩
    | readStart f => simp [accepted, accepts]
    | byte b => exact (awaits_iff s.phase).symm
    | timeout => exact (awaits_iff s.phase).symm
    | ended => exact (awaits_iff s.phase).symm
    | send c bcast => exact List.isEmpty_iff.symm
    | sinkTake => simp [accepted, accepts]
  rw [step_cons hi]
  exact ⟨fun h => handle_of_accepts (hacc.1 h), fun h => handle_of_not_accepts (Bool.eq_false_iff.2 (mt hacc.2 h))⟩

/-- `tx_byte` is the byte that the sink gets on the next `SinkTake`, where there is one. -/
theorem txByte_iff (s : State) (rest : List Event) (b : Byte) :
    txByte s = some b ↔ ∃ t, step { s with inputs := .sinkTake :: rest } = .next t ∧ t.sink = s.sink ++ [b] := by
  cases hq : s.txQueue with
  | nil => simp [txByte, step, stepOnce, handle, onSinkTake, hq]
  | cons c queued =>
    have hstep : step { s with inputs := .sinkTake :: rest } = .next (takeByte c queued { s with inputs := rest }) :=
      step_sinkTake rfl hq
    simp [txByte, hq, hstep]

/-- Settles O53: each output is the acceptance of its event, and acceptance is having a step. -/
theorem readyOutputsMatchAcceptance : Obligations.ReadyOutputsMatchAcceptance := by
  intro s rest steps
  have key : ∀ e, accepts e s = true ↔ steps e := fun e => accepts_iff_handle e { s with inputs := rest }
  exact ⟨fun f => key (.readStart f), fun b => key (.byte b), key .timeout, key .ended, fun c bcast => key (.send c bcast),
    key .sinkTake, txByte_iff s rest, key⟩

/-! ### What a move leaves alone -/

/-- A step with an event to come is that event's move. -/
theorem step_cons_moves {s t : State} {e : Event} {rest : List Event} (hi : s.inputs = e :: rest)
    (h : step s = .next t) : Moves { s with inputs := rest } e t :=
  handle_moves ((step_cons hi).symm.trans h)

section
variable {s t : State} {e : Event}

theorem Moves.inputs_eq (h : Moves s e t) : t.inputs = s.inputs := by
  cases h <;> simp

/-- An event of the RX unit leaves the TX unit and the sink alone (10_state.md R10). -/
theorem Moves.tx_frame (h : Moves s e t) (he : e.isRx = true) :
    t.txQueue = s.txQueue ∧ t.txCount = s.txCount ∧ t.txResult = s.txResult ∧ t.sink = s.sink := by
  cases h with
  | reset | sendField | sendChannel | send | sinkTake => cases he
  | _ => simp

/-- An event of the TX unit leaves the RX unit alone (10_state.md R10). -/
theorem Moves.rx_frame (h : Moves s e t) (he : e.isTx = true) :
    t.phase = s.phase ∧ t.status = s.status ∧ t.data1 = s.data1 ∧ t.data2 = s.data2 ∧ t.sxBuf = s.sxBuf ∧
      t.filter = s.filter ∧ t.result = s.result := by
  cases h with
  | sendField | sendChannel | send | sinkTake => simp
  | _ => cases he

end

/-- Settles O48: the two frames of a move, with the event taken and the parameters kept. -/
theorem unitsShareNoState : Obligations.UnitsShareNoState := by
  intro s t e rest hi hs
  have hm := step_cons_moves hi hs
  exact ⟨hm.tx_frame, hm.rx_frame, hm.inputs_eq, hm.params_eq⟩

/-! ### Where each RX register changes -/

section
variable {s t : State} {e : Event}

theorem Moves.status_change (h : Moves s e t) (he : e ≠ .reset) (hne : t.status ≠ s.status) :
    s.phase = .awaitStatus ∧ e = .byte t.status := by
  cases h with
  | reset => exact absurd rfl he
  | first b hp | alone b hp => exact ⟨hp, rfl⟩
  | _ => simp at hne

theorem Moves.data1_change (h : Moves s e t) (he : e ≠ .reset) (hne : t.data1 ≠ s.data1) :
    s.phase = .awaitData1 ∧ e = .byte t.data1 := by
  cases h with
  | reset => exact absurd rfl he
  | id b hp | oneData b hp | data1 b hp => exact ⟨hp, rfl⟩
  | _ => simp at hne

theorem Moves.data2_change (h : Moves s e t) (he : e ≠ .reset) (hne : t.data2 ≠ s.data2) :
    s.phase = .awaitData2 ∧ e = .byte t.data2 := by
  cases h with
  | reset => exact absurd rfl he
  | data2 b hp => exact ⟨hp, rfl⟩
  | _ => simp at hne

theorem Moves.sxBuf_change (h : Moves s e t) (he : e ≠ .reset) (hne : t.sxBuf ≠ s.sxBuf) :
    (∃ f, e = .readStart f ∧ t.sxBuf = []) ∨
      (s.phase = .sysExAccumulate ∧ ∃ b, e = .byte b ∧ t.sxBuf = s.sxBuf ++ [b]) := by
  cases h with
  | reset => exact absurd rfl he
  | readStart f => exact .inl ⟨f, rfl, rfl⟩
  | append b hp => exact .inr ⟨hp, b, rfl, rfl⟩
  | _ => simp at hne

theorem Moves.filter_change (h : Moves s e t) (he : e ≠ .reset) (hne : t.filter ≠ s.filter) :
    ∃ f, e = .readStart f ∧ t.filter = f := by
  cases h with
  | reset => exact absurd rfl he
  | readStart f => exact ⟨f, rfl, rfl⟩
  | _ => simp at hne

theorem Moves.result_change (h : Moves s e t) (he : e ≠ .reset) (hne : t.result ≠ s.result) :
    (∃ f, e = .readStart f) ∨ (s.phase.awaits = true ∧ t.phase = .done) := by
  cases h with
  | reset => exact absurd rfl he
  | readStart f => exact .inl ⟨f, rfl⟩
  | alone b hp | oneData b hp | data2 b hp | terminator hp | overflow b hp | timeoutFirst hp | endedFirst hp =>
    exact .inr ⟨by rw [hp]; rfl, rfl⟩
  | timeoutCut hp | endedCut hp => exact .inr ⟨hp, rfl⟩
  | _ => simp at hne

end

/-- Settles O49: one lemma a register, each a case split over the moves. -/
theorem registersChangeOnlyWhereTheSpecSays : Obligations.RegistersChangeOnlyWhereTheSpecSays := by
  intro s t e rest hi hs he
  have hm := step_cons_moves hi hs
  refine ⟨fun h => ?_, fun h => ?_, fun h => ?_, hm.sxBuf_change he, hm.filter_change he, hm.result_change he⟩
  · exact (hm.status_change he h).imp_right fun hb => ⟨_, hb, rfl⟩
  · exact (hm.data1_change he h).imp_right fun hb => ⟨_, hb, rfl⟩
  · exact (hm.data2_change he h).imp_right fun hb => ⟨_, hb, rfl⟩

/-! ### How `phase` advances -/

theorem frameClass_alone_iff : ∀ b : Byte, frameClass b = .alone ↔ 0xF1 ≤ b.toNat := by decide

theorem frameClass_oneData_iff : ∀ b : Byte, frameClass b = .oneData ↔ 0xC0 ≤ b.toNat ∧ b.toNat ≤ 0xDF := by decide

/-- The phase a byte leads to from each await phase, by the class of the frame it belongs to. -/
def phaseAfterByte (s : State) (b : Byte) : Phase :=
  match s.phase with
  | .awaitStatus => if frameClass b = .alone then .done else .awaitData1
  | .awaitData1 =>
    if frameClass s.status = .sysex then .sysExAccumulate
    else if frameClass s.status = .oneData then .done
    else .awaitData2
  | .awaitData2 => .done
  | .sysExAccumulate => if b = terminator ∨ s.params.sysexCap = some s.sxBuf.length then .done else .sysExAccumulate
  | .idle => .idle
  | .done => .done

theorem Moves.phase_after_byte {s t : State} {b : Byte} (h : Moves s (.byte b) t) : t.phase = phaseAfterByte s b := by
  cases h with
  | first b hp hc | alone b hp hc | id b hp hc | oneData b hp hc | data1 b hp hc => simp [phaseAfterByte, hp, hc]
  | data2 b hp | terminator hp => simp [phaseAfterByte, hp]
  | overflow b hp hb hc | append b hp hb hc => simp [phaseAfterByte, hp, hb, hc]

/-- Settles O50: a case split over the events; for a byte, `phaseAfterByte` with the classes of a first byte as numbers. -/
theorem phaseAdvances : Obligations.PhaseAdvances := by
  intro s t e rest hi hs
  have hm := step_cons_moves hi hs
  cases e with
  | reset | readStart | timeout | ended => cases hm <;> rfl
  | send => exact (hm.rx_frame rfl).1
  | sinkTake => exact (hm.rx_frame rfl).1
  | byte b =>
    rw [hm.phase_after_byte]
    refine ⟨fun hp => ?_, fun hp => ?_, fun hp => ?_, fun hp => ?_⟩
    · simp only [phaseAfterByte, hp, frameClass_alone_iff]
    · simp only [phaseAfterByte, hp, frameClass_sysex_iff, frameClass_oneData_iff, sysexStart]
    · simp only [phaseAfterByte, hp]
    · simp only [phaseAfterByte, hp]; rfl

/-! ### Bounds of a buffer and a counter -/

theorem within_zero (bound : Option Nat) : within 0 bound = true := by
  cases bound <;> simp [within]

theorem fits_zero (width : Option Nat) : fits 0 width = true := by
  cases width <;> simp [fits]

/-- A number within its bound that has not reached it can grow by one. -/
theorem within_succ {n : Nat} {bound : Option Nat} (h : within n bound = true) (hne : bound ≠ some n) :
    within (n + 1) bound = true := by
  cases bound with
  | none => rfl
  | some cap =>
    have hn : n ≠ cap := fun hc => hne (congrArg some hc.symm)
    simp only [within, decide_eq_true_eq] at h ⊢
    omega

/-! ### The RX half of the invariant -/

section
variable {s t : State}

/-- The RX half depends on `phase`, `status`, the buffer, `result` and the parameters alone. -/
theorem RxInv.of_eq (h : RxInv s) (hphase : t.phase = s.phase) (hstatus : t.status = s.status)
    (hbuf : t.sxBuf = s.sxBuf) (hresult : t.result = s.result) (hparams : t.params = s.params) : RxInv t := by
  obtain ⟨idle, noOutcomeYet, outcomeThere, bufEmpty, atData1, atData2, atSysEx, body, cap, result, overflow, delivered⟩ := h
  constructor <;> simpa only [hphase, hstatus, hbuf, hresult, hparams]

/-- An open read operation has no outcome, so only the phase, the class of `status` and the buffer are left to meet. -/
theorem RxInv.of_open (hp : t.phase.awaits = true) (hresult : t.result = RxResult.empty)
    (bufEmpty : t.phase = .awaitStatus ∨ t.phase = .awaitData1 ∨ t.phase = .awaitData2 → t.sxBuf = [])
    (atData1 : t.phase = .awaitData1 → frameClass t.status ≠ .alone)
    (atData2 : t.phase = .awaitData2 → frameClass t.status = .twoData)
    (atSysEx : t.phase = .sysExAccumulate → t.status = sysexStart)
    (body : bodyOk t.sxBuf = true) (cap : within t.sxBuf.length t.params.sysexCap = true) : RxInv t where
  idle h := by rw [h] at hp; cases hp
  noOutcomeYet _ := hresult
  outcomeThere h := by rw [h] at hp; cases hp
  bufEmpty := bufEmpty
  atData1 := atData1
  atData2 := atData2
  atSysEx := atSysEx
  body := body
  cap := cap
  result := by rw [hresult]; rfl
  overflow h := by rw [hresult] at h; cases h
  delivered := by rw [hresult]; rfl

/-- Ending a read operation keeps the RX half when the record is one that the state can end with. -/
theorem rxInv_endRead {r : RxResult} (hbody : bodyOk s.sxBuf = true) (hcap : within s.sxBuf.length s.params.sysexCap = true)
    (houtcome : r.outcome ≠ .noOutcome) (hok : r.ok = true) (hoverflow : r.cause = .sysExOverflow → s.params.sysexCap ≠ none)
    (hdelivered : msgInBuf s.sxBuf r.msg = true) : RxInv (endRead r s) where
  idle := nofun
  noOutcomeYet := nofun
  outcomeThere _ := houtcome
  bufEmpty := by simp
  atData1 := nofun
  atData2 := nofun
  atSysEx := nofun
  body := hbody
  cap := hcap
  result := hok
  overflow := hoverflow
  delivered := hdelivered

/-- Completing the frame in the latches ends the read operation with a record of R17, whatever the latches hold. -/
theorem rxInv_completed (hbody : bodyOk s.sxBuf = true) (hcap : within s.sxBuf.length s.params.sysexCap = true) :
    RxInv (completed s) :=
  rxInv_endRead hbody hcap (resultOf_outcome _ _) (resultOf_ok _ _ (instrOf_wf _ _ _ _ hbody))
    (fun h => absurd h (resultOf_cause _ _)) (resultOf_msgInBuf _ _ _ _ _)

/-- A cut at the first byte ends in a record of R17. -/
theorem rxInv_noByte {reason : Cause} (h : RxInv s) (hr : reason = .streamTimeout ∨ reason = .streamEnded) :
    RxInv (endRead (RxResult.noByte reason) s) := by
  rcases hr with rfl | rfl <;> exact rxInv_endRead h.body h.cap (by decide) (by decide) nofun rfl

/-- A cut after the first byte ends in a record of R17. -/
theorem rxInv_partialMessage {reason : Cause} (h : RxInv s) (hr : reason = .streamTimeout ∨ reason = .streamEnded) :
    RxInv (endRead (RxResult.partialMessage reason s.status) s) := by
  refine rxInv_endRead h.body h.cap nofun ?_ nofun rfl
  rcases hr with rfl | rfl <;> simp [RxResult.ok, RxResult.partialMessage]

theorem rxInv_resetBlock (s : State) : RxInv (resetBlock s) where
  idle _ := ⟨rfl, rfl⟩
  noOutcomeYet _ := rfl
  outcomeThere := nofun
  bufEmpty _ := rfl
  atData1 := nofun
  atData2 := nofun
  atSysEx := nofun
  body := rfl
  cap := within_zero _
  result := rfl
  overflow := nofun
  delivered := rfl

theorem rxInv_openRead (f : Filter) (s : State) : RxInv (openRead f s) :=
  .of_open rfl rfl (fun _ => rfl) nofun nofun nofun rfl (within_zero _)

/-- A byte that opens a frame of more than one byte is kept. -/
theorem RxInv.keepStatus {b : Byte} (h : RxInv s) (hp : s.phase = .awaitStatus) (hc : frameClass b ≠ .alone) :
    RxInv (goto .awaitData1 (latchStatus b s)) :=
  .of_open rfl (h.noOutcomeYet (by rw [hp]; rfl)) (fun _ => h.bufEmpty (.inl hp)) (fun _ => hc) nofun nofun h.body h.cap

/-- A SysEx id is kept. -/
theorem RxInv.keepId {b : Byte} (h : RxInv s) (hp : s.phase = .awaitData1) (hc : frameClass s.status = .sysex) :
    RxInv (goto .sysExAccumulate (latchData1 b s)) :=
  .of_open rfl (h.noOutcomeYet (by rw [hp]; rfl)) (by simp) nofun nofun (fun _ => (frameClass_sysex_iff _).1 hc)
    h.body h.cap

/-- The first of two data bytes is kept: the class of `status` is the only one left. -/
theorem RxInv.keepData1 {b : Byte} (h : RxInv s) (hp : s.phase = .awaitData1)
    (hc : frameClass s.status ≠ .sysex ∧ frameClass s.status ≠ .oneData) : RxInv (goto .awaitData2 (latchData1 b s)) := by
  have htwo : frameClass s.status = .twoData := by
    have halone := h.atData1 hp
    obtain ⟨hsysex, hone⟩ := hc
    cases hf : frameClass s.status with
    | twoData => rfl
    | alone => exact absurd hf halone
    | oneData => exact absurd hf hone
    | sysex => exact absurd hf hsysex
  exact .of_open rfl (h.noOutcomeYet (by rw [hp]; rfl)) (fun _ => h.bufEmpty (.inr (.inl hp))) nofun (fun _ => htwo) nofun
    h.body h.cap

/-- A SysEx data byte is appended: it is no terminator, and a buffer that is not full has room for it. -/
theorem RxInv.appendByte {b : Byte} (h : RxInv s) (hp : s.phase = .sysExAccumulate) (hb : b ≠ terminator)
    (hc : s.params.sysexCap ≠ some s.sxBuf.length) : RxInv (setBuf (s.sxBuf ++ [b]) s) := by
  have hbody : bodyOk (s.sxBuf ++ [b]) = true := (bodyOk_append _ _).2 ⟨h.body, (bodyOk_cons _ _).2 ⟨hb, rfl⟩⟩
  have hcap : within (s.sxBuf ++ [b]).length s.params.sysexCap = true := by
    rw [List.length_append]; exact within_succ h.cap hc
  have hawaits : s.phase.awaits = true := by rw [hp]; rfl
  exact .of_open hawaits (h.noOutcomeYet hawaits) (by simp [hp]) (by simp [hp]) (by simp [hp]) (fun _ => h.atSysEx hp)
    hbody hcap

theorem Moves.keeps_rxInv {e : Event} (hm : Moves s e t) (h : RxInv s) : RxInv t := by
  have tx : e.isTx = true → RxInv t := fun he =>
    have ⟨hphase, hstatus, _, _, hbuf, _, hresult⟩ := hm.rx_frame he
    h.of_eq hphase hstatus hbuf hresult hm.params_eq
  cases hm with
  | reset => exact rxInv_resetBlock s
  | readStart f => exact rxInv_openRead f s
  | first b hp hc => exact h.keepStatus hp hc
  | id b hp hc => exact h.keepId hp hc
  | data1 b hp hc => exact h.keepData1 hp hc
  | append b hp hb hc => exact h.appendByte hp hb hc
  | alone | oneData | data2 | terminator => exact rxInv_completed h.body h.cap
  | overflow b hp hb hc => exact rxInv_endRead h.body h.cap nofun rfl (fun _ hn => by rw [hn] at hc; cases hc) rfl
  | timeoutFirst => exact rxInv_noByte h (.inl rfl)
  | endedFirst => exact rxInv_noByte h (.inr rfl)
  | timeoutCut => exact rxInv_partialMessage h (.inl rfl)
  | endedCut => exact rxInv_partialMessage h (.inr rfl)
  | sendField | sendChannel | send | sinkTake => exact tx rfl

/-! ### The TX half of the invariant -/

/-- The TX half depends on the queue, the count, `tx_result` and the parameters alone. -/
theorem TxInv.of_eq (h : TxInv s) (hqueue : t.txQueue = s.txQueue) (hcount : t.txCount = s.txCount)
    (hresult : t.txResult = s.txResult) (hparams : t.params = s.params) : TxInv t := by
  obtain ⟨noOutcomeYet, result, sentCount, errorCount, width⟩ := h
  constructor <;> simpa only [hqueue, hcount, hresult, hparams]

theorem txInv_resetBlock (s : State) : TxInv (resetBlock s) where
  noOutcomeYet _ := rfl
  result := rfl
  sentCount := nofun
  errorCount := nofun
  width := fits_zero _

/-- A send that fails leaves an empty queue and a count of zero. -/
theorem txInv_raiseTx {r : TxResult} (s : State) (herr : r.outcome = .error) (hok : r.ok = true) : TxInv (raiseTx r s) where
  noOutcomeYet h := absurd rfl h
  result := hok
  sentCount h := by rw [raiseTx_txResult, herr] at h; cases h
  errorCount _ := rfl
  width := fits_zero _

theorem txInv_openSend (bytes : List Byte) (s : State) : TxInv (openSend bytes s) where
  noOutcomeYet _ := rfl
  result := rfl
  sentCount := nofun
  errorCount := nofun
  width := fits_zero _

/-- The sink takes the head: the last byte reports the count, any other leaves the operation open. -/
theorem txInv_takeByte {b : Byte} {queued : List Byte} (h : TxInv s) (hq : s.txQueue = b :: queued) :
    TxInv (takeByte b queued s) := by
  have hwidth : fits (countTo s.params (s.txCount + 1)) s.params.countWidth = true := countTo_fits _ _
  cases queued with
  | nil => constructor <;> simp [TxResult.ok, TxResult.sent, hwidth]
  | cons c queued =>
    have hopen : s.txResult = TxResult.empty := h.noOutcomeYet (by simp [hq])
    constructor <;> simp [hopen, TxResult.ok, TxResult.empty, hwidth]

theorem Moves.keeps_txInv {e : Event} (hm : Moves s e t) (h : TxInv s) : TxInv t := by
  have rx : e.isRx = true → TxInv t := fun he =>
    have ⟨hqueue, hcount, hresult, _⟩ := hm.tx_frame he
    h.of_eq hqueue hcount hresult hm.params_eq
  cases hm with
  | reset => exact txInv_resetBlock s
  | sendField c bcast k hq hv =>
    refine txInv_raiseTx s rfl ?_
    rcases validate_field hv with rfl | rfl <;> decide
  | sendChannel => exact txInv_raiseTx s rfl (by decide)
  | send c m bcast => exact txInv_openSend (outBytes m bcast) s
  | sinkTake b queued hq => exact txInv_takeByte h hq
  | _ => exact rx rfl

/-! ### The invariant of the block -/

theorem Moves.keeps_inv {e : Event} (hm : Moves s e t) (h : Inv s) : Inv t :=
  ⟨hm.keeps_rxInv h.rx, hm.keeps_txInv h.tx⟩

/-- The invariant speaks of the block and the parameters, not of the events to come. -/
theorem Inv.withInputs (h : Inv s) (rest : List Event) : Inv { s with inputs := rest } :=
  ⟨h.rx.of_eq rfl rfl rfl rfl rfl, h.tx.of_eq rfl rfl rfl rfl⟩

end

/-- Settles O47: a step is a move of the next event, or nothing; every move keeps each half. -/
theorem everyStepKeepsTheInvariant : Obligations.EveryStepKeepsTheInvariant := by
  intro s t h hs
  rcases step_moves hs with ⟨-, rfl⟩ | ⟨e, rest, -, hm⟩
  · exact h
  · exact hm.keeps_inv (h.withInputs rest)

/-- Settles O46: the state after reset is the block reset, from which both halves hold. -/
theorem resetMeetsTheInvariant : Obligations.ResetMeetsTheInvariant :=
  ⟨rxInv_resetBlock State.reset, txInv_resetBlock State.reset⟩

/-! ### Fixed values -/

/-- Settles O44: the fields of `State.reset` as defined. -/
theorem resetStateValues : Obligations.ResetStateValues :=
  ⟨rfl, rfl, rfl, rfl, rfl, rfl, rfl⟩

/-- Every 3-bit number is the code of the kind it selects. -/
theorem KindTag.code_ofCode : ∀ n : BitVec 3, (KindTag.ofCode n).code = n := by decide

/-- Settles O52: each table of codes as defined. -/
theorem registerCodes : Obligations.RegisterCodes :=
  ⟨rfl, rfl, rfl, rfl, rfl, KindTag.code_ofCode⟩

end Sys2Proof.Machine
end

section
/-! The decoder and the encoder (spec/30_encoding.md R60, R67 to R69, R76): one equation of `decode` a frame class, the
inversion of a rejection, and from these that decode and encode are inverse to each other. -/

namespace Sys2Proof

/-! ### The decoder, by the class of the first byte -/

section

variable {st : Byte}

theorem decode_alone (h : frameClass st = .alone) (rest : List Byte) :
    decode (st :: rest) = .instr (instrOf st 0 0 []) rest := by
  simp only [decode, h]

theorem decode_oneData (h : frameClass st = .oneData) (d1 : Byte) (rest : List Byte) :
    decode (st :: d1 :: rest) = .instr (instrOf st d1 0 []) rest := by
  simp only [decode, h]

theorem decode_twoData (h : frameClass st = .twoData) (d1 d2 : Byte) (rest : List Byte) :
    decode (st :: d1 :: d2 :: rest) = .instr (instrOf st d1 d2 []) rest := by
  simp only [decode, h]

/-- A SysEx frame ends at the first terminator after its id. -/
theorem decode_sysex (h : frameClass st = .sysex) (id : Byte) {data : List Byte} (hdata : bodyOk data = true)
    (rest : List Byte) : decode (st :: id :: (data ++ terminator :: rest)) = .instr (instrOf st id 0 data) rest := by
  simp only [decode, h, splitBody_append data rest hdata]

/-- Inversion of a rejection: how much of its frame the bytes hold, by the class of the first byte. -/
theorem decode_reject {bs : List Byte} {e : DecodeError} (h : decode bs = .reject e) :
    bs = [] ∨
    (∃ st, bs = [st] ∧ frameClass st = .oneData) ∨
    (∃ st, bs = [st] ∧ frameClass st = .twoData) ∨
    (∃ st d1, bs = [st, d1] ∧ frameClass st = .twoData) ∨
    (∃ st, bs = [st] ∧ frameClass st = .sysex) ∨
    (∃ st id body, bs = st :: id :: body ∧ frameClass st = .sysex ∧ bodyOk body = true) := by
  match bs with
  | [] => exact .inl rfl
  | st :: bs =>
    right
    cases hc : frameClass st with
    | alone => rw [decode_alone hc] at h; cases h
    | oneData =>
      match bs with
      | [] => exact .inl ⟨st, rfl, hc⟩
      | d1 :: rest => rw [decode_oneData hc] at h; cases h
    | twoData =>
      match bs with
      | [] => exact .inr (.inl ⟨st, rfl, hc⟩)
      | [d1] => exact .inr (.inr (.inl ⟨st, d1, rfl, hc⟩))
      | d1 :: d2 :: rest => rw [decode_twoData hc] at h; cases h
    | sysex =>
      match bs with
      | [] => exact .inr (.inr (.inr (.inl ⟨st, rfl, hc⟩)))
      | id :: body =>
        cases hs : splitBody body with
        | none => exact .inr (.inr (.inr (.inr ⟨st, id, body, rfl, hc, splitBody_none hs⟩)))
        | some split => simp only [decode, hc, hs] at h; cases h

/-! ### The instruction of a frame -/

theorem opcodeOf_sysexStart : opcodeOf sysexStart = .sysex := by decide

theorem instrOf_sysex (h : frameClass st = .sysex) (id d2 : Byte) (data : List Byte) :
    instrOf st id d2 data = .sysex id data := by
  obtain rfl := (Machine.frameClass_sysex_iff st).1 h
  simp only [instrOf, opcodeOf_sysexStart]

/-- An instruction decoded belongs to the row its first byte selects. -/
theorem decode_opcode {bs rest : List Byte} {i : Instr} (h : decode (st :: bs) = .instr i rest) :
    i.opcode = opcodeOf st := by
  rcases decode_instr h with ⟨_, hbs, -, rfl⟩ | ⟨_, _, hbs, -, rfl⟩ | ⟨_, _, _, hbs, -, rfl⟩ | ⟨_, _, hbs, -, rfl⟩ <;>
    obtain ⟨rfl, -⟩ := List.cons.inj hbs
  · exact instrOf_opcode ..
  · exact instrOf_opcode ..
  · exact instrOf_opcode ..
  · exact opcodeOf_sysexStart.symm

/-- The first byte of a frame has the class of its instruction's opcode. -/
theorem frameClass_encode {i : Instr} {bs : List Byte} (h : encode i = st :: bs) :
    frameClass st = i.opcode.frameClass := by
  rw [frameClass_eq, opcodeOf_encode h]

end

/-! ### The statements -/

/-- Settles O3: the frame has the shape of its first byte's class, and the decoder's equation of that class reads it
back. -/
theorem decodeOfEncode : Obligations.DecodeOfEncode := by
  intro i rest hwf
  obtain ⟨st, d1, d2, data, hshape⟩ := encode_shape i
  have hinstr := instrOf_encode i st
  cases hk : i.opcode.frameClass <;> simp only [hk] at hshape hinstr <;>
    have hclass := (frameClass_encode hshape).trans hk <;> rw [hshape]
  case alone => rw [List.singleton_append, decode_alone hclass, hinstr 0 0 [] hshape]
  case oneData => rw [List.cons_append, List.singleton_append, decode_oneData hclass, hinstr d1 0 [] hshape]
  case twoData =>
    rw [List.cons_append, List.cons_append, List.singleton_append, decode_twoData hclass, hinstr d1 d2 [] hshape]
  case sysex =>
    obtain rfl : .sysex d1 data = i := (instrOf_sysex hclass d1 0 data).symm.trans (hinstr d1 0 data hshape)
    have hdata : bodyOk data = true := hwf
    rw [List.cons_append, List.cons_append, List.append_assoc, List.singleton_append, decode_sysex hclass d1 hdata,
      instrOf_sysex hclass]

/-- Settles O4: in each case of `decode_instr` the bytes taken are those `encode_instrOf` writes for the class. -/
theorem encodeOfDecode : Obligations.EncodeOfDecode := by
  intro bs rest i h
  rcases decode_instr h with
    ⟨st, rfl, hc, rfl⟩ | ⟨st, d1, rfl, hc, rfl⟩ | ⟨st, d1, d2, rfl, hc, rfl⟩ | ⟨id, data, rfl, hdata, rfl⟩
  · exact ⟨instrOf_wf _ _ _ _ bodyOk_nil, by simp [encode_instrOf, hc]⟩
  · exact ⟨instrOf_wf _ _ _ _ bodyOk_nil, by simp [encode_instrOf, hc]⟩
  · exact ⟨instrOf_wf _ _ _ _ bodyOk_nil, by simp [encode_instrOf, hc]⟩
  · exact ⟨hdata, by simp [encode]⟩

/-- Settles O5: each unfinished frame of `decode_reject` is completed by its missing bytes: zeros for data bytes and the
id, the terminator for a SysEx body, 0xF1 where no byte has come. -/
theorem onlyIncompleteFramesAreRejected : Obligations.OnlyIncompleteFramesAreRejected := by
  intro bs e h
  rcases decode_reject h with rfl | ⟨st, rfl, hc⟩ | ⟨st, rfl, hc⟩ | ⟨st, d1, rfl, hc⟩ | ⟨st, rfl, hc⟩ |
    ⟨st, id, body, rfl, hc, hbody⟩
  · exact ⟨[0xF1], _, decode_alone (by decide) []⟩
  · exact ⟨[0], _, decode_oneData hc 0 []⟩
  · exact ⟨[0, 0], _, decode_twoData hc 0 0 []⟩
  · exact ⟨[0], _, decode_twoData hc d1 0 []⟩
  · exact ⟨[0, terminator], _, decode_sysex hc 0 bodyOk_nil []⟩
  · exact ⟨[terminator], _, decode_sysex hc id hbody []⟩

/-- Settles O2: the rows cover every byte and exclude each other, and `opcodeOf` is the opcode of the row selected. -/
theorem everyFirstByteSelectsOneRow : Obligations.EveryFirstByteSelectsOneRow := by
  refine ⟨rfl, fun b => ?_⟩
  obtain ⟨r, hr, hsel, hop⟩ := opcodeOf_selects b
  refine ⟨r, hr, eq_of_beq hsel, fun r' hr' hsel' => ?_, fun bs i rest h => ?_⟩
  · exact opcodeTable_disjoint b r' hr' r hr (beq_of_eq hsel') hsel
  · exact (decode_opcode h).trans hop

/-- Settles O1: each written frame is run through the decoder. -/
theorem writtenFramesDecode : Obligations.WrittenFramesDecode := by
  unfold Obligations.WrittenFramesDecode
  decide

end Sys2Proof
end

section
/-! The message model (spec/40_message_model.md R88 to R93): the frame a message is written as, the numbers in its content,
and the round trip: the content of a valid message, read byte by byte, runs the instruction of its frame and delivers it. -/

namespace Sys2Proof.Machine

/-! ### The bytes of a message, as numbers -/

theorem widen_toNat (d : Data7) : (widen d).toNat = d.toNat := by
  rw [widen, BitVec.toNat_setWidth]; omega

theorem statusOf_toNat (n : Nibble) (c : WireChannel) : (statusOf n c).toNat = 16 * n.toNat + c.toNat := by
  revert n c; decide

theorem wireOf_toNat {ch : Channel} (h : channelOk ch = true) : (wireOf ch).toNat = ch.toNat - 1 := by
  revert ch; decide

theorem programWire_toNat {p : Byte} (h : 1 ≤ p) : (programWire p).toNat = p.toNat - 1 := by
  unfold programWire; bv_omega

theorem channelOk_iff (ch : Channel) : channelOk ch = true ↔ 1 ≤ ch.toNat ∧ ch.toNat ≤ 16 := by
  revert ch; decide

/-- A ProgramChange is valid with its channel in [1,16] and its program number in [1,128] (R82, R87). -/
theorem valid_programChange_iff (ch : Channel) (p : Byte) :
    (Message.programChange ch p).valid = true ↔ channelOk ch = true ∧ 1 ≤ p ∧ p ≤ 128 := by
  simp only [Message.valid, Bool.and_eq_true, decide_eq_true_eq, and_assoc]

theorem valid_sysEx_iff (id : Data7) (data : List Byte) :
    (Message.sysEx id data).valid = true ↔ data ≠ [] ∧ bodyOk data = true := by
  simp [Message.valid]

/-- A valid message has its channel, if any, in range (R87). -/
theorem Message.valid_channel {m : Message} {ch : Channel} (hm : m.valid = true) (hch : m.channel? = some ch) :
    channelOk ch = true := by
  cases m with
  | programChange => cases hch; exact ((valid_programChange_iff _ _).1 hm).1
  | sysEx => cases hch
  | noteOff | noteOn | polyphonicAftertouch | controlChange | channelAftertouch | pitchBend => cases hch; exact hm

/-- The status byte of a channel message: its type nibble and its channel (R88). -/
theorem statusByte_toNat {m : Message} {ch : Channel} (hm : m.valid = true) (hch : m.channel? = some ch) :
    m.statusByte.toNat = 16 * m.tag.nibble.toNat + (ch.toNat - 1) := by
  rw [Message.statusByte, hch, statusOf_toNat, wireOf_toNat (Message.valid_channel hm hch)]

theorem statusByte_sysEx (id : Data7) (data : List Byte) : (Message.sysEx id data).statusByte = 0xF0 := rfl

/-- The type nibbles of the channel messages are 8 to 14 (30_encoding.md R62). -/
theorem nibble_range {m : Message} {ch : Channel} (hch : m.channel? = some ch) :
    8 ≤ m.tag.nibble.toNat ∧ m.tag.nibble.toNat ≤ 14 := by
  cases m <;> cases hch <;> simp [Message.tag, KindTag.nibble]

/-- "The result is always in [0x80, 0xF0]" (R88). -/
theorem statusByte_range {m : Message} (hm : m.valid = true) : 0x80 ≤ m.statusByte.toNat ∧ m.statusByte.toNat ≤ 0xF0 := by
  cases hch : m.channel? with
  | none =>
    have hst : m.statusByte = sysexStart := by rw [Message.statusByte, hch]
    rw [hst]
    decide
  | some ch =>
    obtain ⟨h1, h16⟩ := (channelOk_iff ch).1 (Message.valid_channel hm hch)
    obtain ⟨hlow, hhigh⟩ := nibble_range hch
    rw [statusByte_toNat hm hch]
    omega

/-! ### The frame of a message -/

/-- The instruction whose frame is the content of the message. -/
def Message.frame : Message → Instr
  | .noteOff ch n v => .noteOff (wireOf ch) (widen n) (widen v)
  | .noteOn ch n v => .noteOn (wireOf ch) (widen n) (widen v)
  | .polyphonicAftertouch ch n p => .polyAt (wireOf ch) (widen n) (widen p)
  | .controlChange ch k v => .ctrlChange (wireOf ch) (widen k) (widen v)
  | .programChange ch p => .progChange (wireOf ch) (programWire p)
  | .channelAftertouch ch p => .chanAt (wireOf ch) (widen p)
  | .pitchBend ch l m => .pitchBend (wireOf ch) (widen l) (widen m)
  | .sysEx id data => .sysex (widen id) data

theorem encode_frame (m : Message) : encode m.frame = m.content := by
  cases m <;> rfl

theorem frame_wf {m : Message} (hm : m.valid = true) : m.frame.wf = true := by
  cases m with
  | sysEx id data => exact ((valid_sysEx_iff id data).1 hm).2
  | noteOff | noteOn | polyphonicAftertouch | controlChange | programChange | channelAftertouch | pitchBend => rfl

/-- Only a SysEx message has a SysEx frame, and its data is the data of the frame. -/
theorem frame_eq_sysex {m : Message} {id : Byte} {data : List Byte} (h : m.frame = .sysex id data) :
    ∃ k, m = .sysEx k data := by
  cases m <;> cases h
  exact ⟨_, rfl⟩

/-! ### What a frame delivers -/

theorem channelOf_wireOf {ch : Channel} (h : channelOk ch = true) : channelOf (wireOf ch) = ch := by
  revert ch; decide

theorem wireOf_channelOf (c : WireChannel) : wireOf (channelOf c) = c := by
  revert c; decide

theorem programOf_programWire (p : Byte) : programOf (programWire p) = p := BitVec.sub_add_cancel p 1

theorem programWire_programOf (w : Byte) : programWire (programOf w) = w := BitVec.add_sub_cancel w 1

theorem programWire_le {p : Byte} (h1 : 1 ≤ p) (h2 : p ≤ 128) : programWire p ≤ 127 := by
  unfold programWire; bv_omega

theorem widen_le (d : Data7) : widen d ≤ 127 := by
  revert d; decide

theorem low7_ne_zero {b : Byte} (hb : b ≤ 127) (h : b ≠ 0) : low7 b ≠ 0 := by
  revert b; decide

theorem build2_message_iff {mk : Data7 → Data7 → Message} {d1 d2 : Byte} {m : Message} :
    build2 mk d1 d2 = .message m ↔ d1 ≤ 127 ∧ d2 ≤ 127 ∧ mk (low7 d1) (low7 d2) = m := by
  unfold build2
  split
  · next h => exact ⟨nofun, fun ⟨h1, _, _⟩ => absurd h (BitVec.not_lt.2 h1)⟩
  · next h1 =>
    split
    · next h => exact ⟨nofun, fun ⟨_, h2, _⟩ => absurd h (BitVec.not_lt.2 h2)⟩
    · next h2 =>
      exact ⟨fun h => ⟨BitVec.not_lt.1 h1, BitVec.not_lt.1 h2, Built.message.inj h⟩, fun ⟨_, _, h⟩ => congrArg _ h⟩

theorem build1_message_iff {mk : Byte → Message} {d1 : Byte} {m : Message} :
    build1 mk d1 = .message m ↔ d1 ≤ 127 ∧ mk d1 = m := by
  unfold build1
  split
  · next h => exact ⟨nofun, fun ⟨h1, _⟩ => absurd h (BitVec.not_lt.2 h1)⟩
  · next h1 => exact ⟨fun h => ⟨BitVec.not_lt.1 h1, Built.message.inj h⟩, fun ⟨_, h⟩ => congrArg _ h⟩

theorem buildSysEx_message_iff {id : Byte} {data : List Byte} {m : Message} :
    buildSysEx id data = .message m ↔ id ≤ 127 ∧ data ≠ [] ∧ .sysEx (low7 id) data = m := by
  unfold buildSysEx
  split
  · next h => exact ⟨nofun, fun ⟨h1, _, _⟩ => absurd h (BitVec.not_lt.2 h1)⟩
  · next h1 =>
    split
    · next h => exact ⟨nofun, fun ⟨_, hne, _⟩ => absurd h hne⟩
    · next hne => exact ⟨fun h => ⟨BitVec.not_lt.1 h1, hne, Built.message.inj h⟩, fun ⟨_, _, h⟩ => congrArg _ h⟩

/-- Fields in range always construct (R82). -/
theorem build2_widen (mk : Data7 → Data7 → Message) (a b : Data7) : build2 mk (widen a) (widen b) = .message (mk a b) :=
  build2_message_iff.2 ⟨widen_le a, widen_le b, by rw [low7_widen, low7_widen]⟩

/-- In omni mode no message is filtered (41_rx_framer.md R111). -/
theorem channelResult_omni {f : Filter} (hf : f.omni = true) (m : Message) (c : WireChannel) (st : Byte) :
    channelResult (.message m) c st f = RxResult.message (normalise m) := by
  simp only [channelResult, Filter.passes, hf, Bool.true_or, if_true]

/-- A channel frame that delivers a message has constructed it, and normalised it since. -/
theorem channelResult_msg {built : Built} {c : WireChannel} {st : Byte} {f : Filter} {m : Message}
    (h : (channelResult built c st f).msg = some m) : ∃ m', built = .message m' ∧ m = normalise m' := by
  cases built with
  | badField k => cases h
  | message m' =>
    refine ⟨m', rfl, ?_⟩
    unfold channelResult at h
    dsimp only at h
    split at h <;> cases h
    rfl

theorem sysExResult_msg {built : Built} {m : Message} (h : (sysExResult built).msg = some m) : built = .message m := by
  cases built <;> cases h
  rfl

/-- The frame of a valid message delivers it, normalised, in omni mode (R92). -/
theorem resultOf_frame {f : Filter} {m : Message} (hf : f.omni = true) (hm : m.valid = true) :
    resultOf f m.frame = RxResult.message (normalise m) := by
  have hch : ∀ ch, m.channel? = some ch → channelOf (wireOf ch) = ch :=
    fun _ h => channelOf_wireOf (Message.valid_channel hm h)
  cases m with
  | noteOff ch | noteOn ch | polyphonicAftertouch ch | controlChange ch | pitchBend ch =>
    simp only [Message.frame, resultOf, build2_widen, channelResult_omni hf, hch ch rfl]
  | programChange ch p =>
    obtain ⟨-, h1, h2⟩ := (valid_programChange_iff ch p).1 hm
    rw [Message.frame, resultOf, build1_message_iff.2 ⟨programWire_le h1 h2, rfl⟩, channelResult_omni hf, hch ch rfl,
      programOf_programWire]
  | channelAftertouch ch p =>
    rw [Message.frame, resultOf, build1_message_iff.2 ⟨widen_le p, rfl⟩, channelResult_omni hf, hch ch rfl, low7_widen]
  | sysEx id data =>
    obtain ⟨hne, -⟩ := (valid_sysEx_iff id data).1 hm
    rw [Message.frame, resultOf, buildSysEx_message_iff.2 ⟨widen_le id, hne, rfl⟩, low7_widen]
    rfl

/-- An instruction that delivers a message without the re-tag is the message's own frame (R92). -/
theorem frame_of_resultOf {f : Filter} {i : Instr} {m : Message} (hmsg : (resultOf f i).msg = some m)
    (htag : ∀ c n, i ≠ .noteOn c n 0) : m.frame = i := by
  cases i with
  | noteOff c d1 d2 | polyAt c d1 d2 | ctrlChange c d1 d2 | pitchBend c d1 d2 =>
    obtain ⟨_, hb, rfl⟩ := channelResult_msg hmsg
    obtain ⟨h1, h2, rfl⟩ := build2_message_iff.1 hb
    simp only [normalise, Message.frame, wireOf_channelOf, widen_low7 _ h1, widen_low7 _ h2]
  | noteOn c d1 d2 =>
    obtain ⟨_, hb, rfl⟩ := channelResult_msg hmsg
    obtain ⟨h1, h2, rfl⟩ := build2_message_iff.1 hb
    have hv : low7 d2 ≠ 0 := low7_ne_zero h2 fun h => htag c d1 (h ▸ rfl)
    simp only [normalise, if_neg hv, Message.frame, wireOf_channelOf, widen_low7 _ h1, widen_low7 _ h2]
  | progChange c w =>
    obtain ⟨_, hb, rfl⟩ := channelResult_msg hmsg
    obtain ⟨-, rfl⟩ := build1_message_iff.1 hb
    simp only [normalise, Message.frame, wireOf_channelOf, programWire_programOf]
  | chanAt c d1 =>
    obtain ⟨_, hb, rfl⟩ := channelResult_msg hmsg
    obtain ⟨h1, rfl⟩ := build1_message_iff.1 hb
    simp only [normalise, Message.frame, wireOf_channelOf, widen_low7 _ h1]
  | sysex id data =>
    obtain ⟨h1, -, rfl⟩ := buildSysEx_message_iff.1 (sysExResult_msg hmsg)
    rw [Message.frame, widen_low7 _ h1]
  | unrecData | unrecF1 | unrecF2F3 | unrecF4F7 | unrecF8FF => cases hmsg

/-! ### Reading a frame byte by byte -/

/-- Completion overwrites `phase`. -/
@[simp] theorem complete_goto (p : Phase) (s : State) : complete (goto p s) = complete s := by
  rw [complete_eq, complete_eq]; rfl

/-- The SysEx loop appends a body that the buffer has room for (44_sysex.md R162). -/
theorem run_sysEx_body {body : List Byte} {s : State} {rest : List Event} (hbody : bodyOk body = true)
    (hp : s.phase = .sysExAccumulate) (hi : s.inputs = body.map .byte ++ rest)
    (hcap : ∀ cap, s.params.sysexCap = some cap → s.sxBuf.length + body.length ≤ cap) :
    run body.length s = .next (setBuf (s.sxBuf ++ body) { s with inputs := rest }) := by
  induction body generalizing s with
  | nil =>
    obtain rfl : s.inputs = rest := hi
    rw [List.append_nil]; rfl
  | cons b bs ih =>
    obtain ⟨hb, hbs⟩ := (bodyOk_cons b bs).1 hbody
    have hroom : s.params.sysexCap ≠ some s.sxBuf.length := fun h => by
      have := hcap _ h
      simp only [List.length_cons] at this
      omega
    let t := setBuf (s.sxBuf ++ [b]) { s with inputs := bs.map .byte ++ rest }
    have hloop : run bs.length t = .next (setBuf (t.sxBuf ++ bs) { t with inputs := rest }) :=
      ih hbs hp rfl fun cap h => by
        have := hcap cap h
        simp only [t, setBuf_sxBuf, List.length_append, List.length_cons, List.length_nil] at this ⊢
        omega
    rw [List.length_cons, run_next _ (step_append hi hp hb hroom)]
    refine hloop.trans ?_
    simp only [t, setBuf, List.append_assoc, List.singleton_append]

/-! #### Whole frames, by the class of the first byte -/

section
variable {s : State} {rest : List Event} {st : Byte}

/-- A run of one step that completes a frame. -/
theorem run_one_complete {t : State} (h : step s = complete t) : run 1 s = complete t := by
  rw [complete_completed] at h ⊢
  exact run_next 0 h

theorem run_alone (hc : frameClass st = .alone) (hp : s.phase = .awaitStatus) (hi : s.inputs = .byte st :: rest) :
    run 1 s = complete (latchStatus st { s with inputs := rest }) :=
  run_one_complete (step_alone hi hp hc)

theorem run_oneData {d1 : Byte} (hc : frameClass st = .oneData) (hp : s.phase = .awaitStatus)
    (hi : s.inputs = .byte st :: .byte d1 :: rest) :
    run 2 s = complete (latchData1 d1 (latchStatus st { s with inputs := rest })) := by
  rw [run_next 1 (step_first hi hp (by simp [hc])), run_one_complete (step_oneData rfl rfl hc)]
  exact complete_goto .awaitData1 (latchData1 d1 (latchStatus st { s with inputs := rest }))

theorem run_twoData {d1 d2 : Byte} (hc : frameClass st = .twoData) (hp : s.phase = .awaitStatus)
    (hi : s.inputs = .byte st :: .byte d1 :: .byte d2 :: rest) :
    run 3 s = complete (latchData2 d2 (latchData1 d1 (latchStatus st { s with inputs := rest }))) := by
  rw [run_next 2 (step_first hi hp (by simp [hc])), run_next 1 (step_twoData rfl rfl hc),
    run_one_complete (step_second rfl rfl)]
  exact complete_goto .awaitData2 (latchData2 d2 (latchData1 d1 (latchStatus st { s with inputs := rest })))

/-- The buffer is empty when the body begins, and must have room for it. -/
theorem run_sysEx {id : Byte} {data : List Byte} (hc : frameClass st = .sysex) (hdata : bodyOk data = true)
    (hp : s.phase = .awaitStatus) (hbuf : s.sxBuf = [])
    (hi : s.inputs = (st :: id :: (data ++ [terminator])).map .byte ++ rest)
    (hcap : ∀ cap, s.params.sysexCap = some cap → data.length ≤ cap) :
    run (st :: id :: (data ++ [terminator])).length s =
      complete (setBuf data (latchData1 id (latchStatus st { s with inputs := rest }))) := by
  have hi : s.inputs = .byte st :: .byte id :: (data.map .byte ++ .byte terminator :: rest) := by simpa using hi
  let t := latchData1 id (latchStatus st { s with inputs := data.map .byte ++ .byte terminator :: rest })
  have hloop : run data.length (goto .sysExAccumulate t) =
      .next (setBuf data { goto .sysExAccumulate t with inputs := .byte terminator :: rest }) := by
    refine (run_sysEx_body hdata rfl rfl fun cap h => ?_).trans ?_
    · simpa [t, hbuf] using hcap cap h
    · simp [t, hbuf]
  have hlen : (st :: id :: (data ++ [terminator])).length = data.length + 1 + 1 + 1 := by simp
  rw [hlen, run_next _ (step_first hi hp (by simp [hc])), run_next _ (step_id rfl rfl hc)]
  refine (run_add _ 1 hloop).trans ((run_one_complete (step_terminator rfl rfl)).trans ?_)
  exact complete_goto .sysExAccumulate (setBuf data (latchData1 id (latchStatus st { s with inputs := rest })))

end

/-- Reading a whole frame, one byte a step, is the effect of its instruction in one piece (41_rx_framer.md R101 to
R107). -/
theorem run_frame {i : Instr} {s : State} {rest : List Event} (hwf : i.wf = true) (hp : s.phase = .awaitStatus)
    (hbuf : s.sxBuf = []) (hi : s.inputs = (encode i).map .byte ++ rest)
    (hcap : ∀ id data cap, i = .sysex id data → s.params.sysexCap = some cap → data.length ≤ cap) :
    run (encode i).length s = exec i { s with inputs := rest } := by
  obtain ⟨st, d1, d2, data, hshape⟩ := encode_shape i
  have hinstr := instrOf_encode i st
  cases hk : i.opcode.frameClass <;> simp only [hk] at hshape hinstr <;>
    have hclass := (frameClass_encode hshape).trans hk <;> rw [hshape] at hi ⊢
  case alone =>
    rw [← hinstr 0 0 [] hshape, exec_alone hclass]
    exact run_alone hclass hp hi
  case oneData =>
    rw [← hinstr d1 0 [] hshape, exec_oneData hclass]
    exact run_oneData hclass hp hi
  case twoData =>
    rw [← hinstr d1 d2 [] hshape, exec_twoData hclass]
    exact run_twoData hclass hp hi
  case sysex =>
    obtain rfl : .sysex d1 data = i := (instrOf_sysex hclass d1 0 data).symm.trans (hinstr d1 0 data hshape)
    rw [← hinstr d1 0 data hshape, exec_sysex hclass]
    exact run_sysEx hclass hwf hp hbuf hi (hcap d1 data · rfl)

/-! ### The statements -/

/-- Settles O32: the content is the frame of `m.frame`, reading it runs that instruction, and `resultOf_frame` says what
it delivers. -/
theorem receivingContentDeliversTheMessage : Obligations.ReceivingContentDeliversTheMessage := by
  intro m s rest hm hp hbuf hf hi hcap
  have hframe : ∀ id data cap, m.frame = .sysex id data → s.params.sysexCap = some cap → data.length ≤ cap := by
    intro id data cap h
    obtain ⟨k, rfl⟩ := frame_eq_sysex h
    exact hcap k data cap rfl
  have hrun := run_frame (frame_wf hm) hp hbuf (by rw [encode_frame]; exact hi) hframe
  rw [encode_frame, exec_eq, resultOf_frame hf hm] at hrun
  obtain ⟨-, -, -, -, -, hinputs, -⟩ := latched_frame m.frame { s with inputs := rest }
  refine ⟨_, hrun, rfl, hinputs, ?_⟩
  cases m with
  | noteOn ch n v =>
    by_cases hv : v = 0
    · subst hv; rfl
    · simp only [endRead_result, normalise, if_neg hv]; rfl
  | noteOff | polyphonicAftertouch | controlChange | programChange | channelAftertouch | pitchBend | sysEx => rfl

/-- Settles O33: the message's own frame is the instruction run. -/
theorem deliveredMessageHasTheContentRead : Obligations.DeliveredMessageHasTheContentRead := by
  intro i s t m hexec hmsg _ htag
  rw [exec_eq] at hexec
  cases hexec
  rw [← encode_frame, frame_of_resultOf hmsg htag]

/-- Settles O7: the range is `statusByte_range`, nibble and channel of each kind are `statusByte_toNat`. -/
theorem statusByteOfMessage : Obligations.StatusByteOfMessage := by
  intro m hm
  obtain ⟨hlow, hhigh⟩ := statusByte_range hm
  refine ⟨hlow, hhigh, ?_⟩
  cases m with
  | noteOff | noteOn | polyphonicAftertouch | controlChange | programChange | channelAftertouch | pitchBend =>
    exact statusByte_toNat hm rfl
  | sysEx id data => exact statusByte_sysEx id data

/-- Settles O8: `content` is written kind by kind; `widen` keeps a 7-bit number and `programWire` subtracts 1. -/
theorem contentOfMessage : Obligations.ContentOfMessage := by
  intro m hm
  cases m with
  | noteOff | noteOn | polyphonicAftertouch | controlChange | channelAftertouch | pitchBend =>
    simp only [Message.content, Message.body, List.map_cons, List.map_nil, widen_toNat]
  | programChange ch p =>
    obtain ⟨-, h1, h2⟩ := (valid_programChange_iff ch p).1 hm
    have hp : p.toNat ≤ 128 := h2
    exact ⟨by simp only [Message.content, Message.body, List.map_cons, List.map_nil, programWire_toNat h1], by omega⟩
  | sysEx id data =>
    simp only [Message.content, Message.body, statusByte_sysEx, List.map_cons, List.map_append, List.map_nil, widen_toNat]
    rfl

/-- Settles O9: the instruction is the frame of the ProgramChange, which delivers it. -/
theorem programNumberRoundTrip : Obligations.ProgramNumberRoundTrip := by
  intro ch p s hch1 hch16 hp1 hp128 hf
  have hm := (valid_programChange_iff ch p).2 ⟨(channelOk_iff ch).2 ⟨hch1, hch16⟩, hp1, hp128⟩
  refine ⟨wireOf ch, programWire p, (encode_frame _).symm, programWire_toNat hp1, _, exec_eq _ s, ?_⟩
  exact congrArg RxResult.msg (resultOf_frame hf hm)

end Sys2Proof.Machine
end

section
/-! The read algorithm byte by byte (spec/41_rx_framer.md R100 to R107, R118): what each answer of the source does in each
phase, and that a byte either completes the frame of the bytes taken, whose instruction then runs, or is only kept. -/

namespace Sys2Proof.Machine

/-! ### The first byte, as a number -/

theorem typeNibble_toNat (b : Byte) : (typeNibble b).toNat = b.toNat / 16 := by
  revert b; decide

theorem typeNibble_eq_iff (b : Byte) (n : Nibble) : typeNibble b = n ↔ b.toNat / 16 = n.toNat := by
  rw [← BitVec.toNat_inj, typeNibble_toNat]

theorem frameClass_twoData_iff : ∀ b : Byte,
    frameClass b = .twoData ↔ b.toNat ≤ 0xBF ∨ 0xE0 ≤ b.toNat ∧ b.toNat ≤ 0xEF := by decide

/-- Settles O6: `decode_instr` says what each class of frame takes, and the classes are ranges of the first byte. -/
theorem frameLengthByFirstByte : Obligations.FrameLengthByFirstByte := by
  intro st bs rest i h
  have hstart : st = 0xF0 → st.toNat = 0xF0 := congrArg BitVec.toNat
  rcases decode_instr h with ⟨_, hbs, hc, -⟩ | ⟨_, d1, hbs, hc, -⟩ | ⟨_, d1, d2, hbs, hc, -⟩ | ⟨id, data, hbs, hdata, rfl⟩ <;>
    obtain ⟨rfl, rfl⟩ := List.cons.inj hbs
  · rw [frameClass_alone_iff] at hc
    exact ⟨by omega, by omega, fun _ => rfl, fun h => absurd (hstart h) (by omega)⟩
  · rw [frameClass_oneData_iff] at hc
    exact ⟨fun _ => rfl, by omega, by omega, fun h => absurd (hstart h) (by omega)⟩
  · rw [frameClass_twoData_iff] at hc
    exact ⟨by omega, fun _ => rfl, by omega, fun h => absurd (hstart h) (by omega)⟩
  · have hlen : sysexStart.toNat = 0xF0 := rfl
    exact ⟨by omega, by omega, by omega, fun _ => ⟨id, data, rfl, rfl, (bodyOk_iff data).1 hdata⟩⟩

/-! ### Opening and cutting a read -/

/-- Settles O26: `onReadStart` is `openRead` in Idle and Done. -/
theorem readStartOpensARead : Obligations.ReadStartOpensARead := by
  intro s f rest hp hi
  rw [step_cons hi, handle, onReadStart_eq, if_pos hp]
  rfl

/-- Settles O21: a cut in AwaitStatus is the outcome "no message". -/
theorem noFirstByteIsNoMessage : Obligations.NoFirstByteIsNoMessage := by
  intro s rest hp
  constructor <;> intro hi <;> rw [step_cons hi, handle, onCut_eq, if_pos hp] <;> rfl

/-- A cut in a later phase is PartialMessage (R105). -/
theorem onCut_partial {s : State} (e : Event) (reason : Cause)
    (hp : s.phase = .awaitData1 ∨ s.phase = .awaitData2 ∨ s.phase = .sysExAccumulate) :
    onCut e reason s = .next (endRead (RxResult.partialMessage reason s.status) s) := by
  rcases hp with hp | hp | hp <;> simp only [onCut, hp]

/-- Settles O24: `onCut_partial` for each of the two conditions. -/
theorem cutMessageIsPartial : Obligations.CutMessageIsPartial := by
  intro s rest hp
  exact ⟨fun hi => (step_cons hi).trans (onCut_partial (s := { s with inputs := rest }) .timeout .streamTimeout hp),
    fun hi => (step_cons hi).trans (onCut_partial (s := { s with inputs := rest }) .ended .streamEnded hp)⟩

/-! ### One byte in each phase -/

/-- A first byte 0xF1 to 0xFF is refused, whatever the latches hold (R101; 45_unrecognized.md R171). -/
theorem resultOf_alone {st : Byte} (h : frameClass st = .alone) (f : Filter) (d1 d2 : Byte) (data : List Byte) :
    resultOf f (instrOf st d1 d2 data) = RxResult.unrecognized st := by
  have inv := firstByte_opcodeOf st
  rw [frameClass_eq] at h
  unfold instrOf
  cases hop : opcodeOf st <;> rw [hop] at h inv <;> cases h <;> exact congrArg RxResult.unrecognized inv

/-- Settles O20: a byte is a frame of its own exactly from 0xF1 up; any other opens a frame. -/
theorem statusByteDispatch : Obligations.StatusByteDispatch := by
  intro s b rest hp hi
  by_cases hc : frameClass b = .alone
  · have hnum := (frameClass_alone_iff b).1 hc
    have hne : b ≠ 0xF0 := by rintro rfl; cases hc
    rw [step_alone hi hp hc, complete_eq, latchStatus_status, resultOf_alone hc, if_neg hne, if_pos (by omega)]
    rfl
  · have hnum := mt (frameClass_alone_iff b).2 hc
    rw [step_first hi hp hc]
    split
    · rfl
    · next hne =>
      have hne : b.toNat ≠ 0xF0 := fun h => hne (BitVec.toNat_inj.1 h)
      rw [if_neg (by omega)]
      rfl

theorem step_data1 {s : State} {b : Byte} {rest : List Event} (hi : s.inputs = .byte b :: rest)
    (hp : s.phase = .awaitData1) : step s = byteAtData1 b { s with inputs := rest } := by
  rw [step_cons hi]
  simp only [handle, onByte, hp]

/-- Settles O22: `byteAtData1` with its tests of the type nibble as numbers; in AwaitData2 every byte completes. -/
theorem dataByteRouting : Obligations.DataByteRouting := by
  intro s b rest hi
  refine ⟨fun hp => ?_, fun hp => step_second hi hp⟩
  rw [step_data1 hi hp, byteAtData1]
  simp only [typeNibble_eq_iff]
  rfl

/-! ### A byte completes the frame, or is only kept -/

theorem splitBody_of_bodyOk {bs : List Byte} (h : bodyOk bs = true) : splitBody bs = none := by
  cases hs : splitBody bs with
  | none => rfl
  | some split =>
    obtain ⟨-, rfl⟩ := splitBody_some (data := split.1) (rest := split.2) hs
    exact absurd h (by simp [bodyOk])

section
variable {st : Byte}

/-- One byte is no frame unless its class is to stand alone. -/
theorem decode_first (h : frameClass st ≠ .alone) : ∃ e, decode [st] = .reject e := by
  cases hc : frameClass st with
  | alone => exact absurd hc h
  | oneData | twoData | sysex => exact ⟨.missingData1, by simp only [decode, hc]⟩

theorem decode_missingData2 (h : frameClass st = .twoData) (d1 : Byte) : decode [st, d1] = .reject .missingData2 := by
  simp only [decode, h]

theorem decode_unterminated (h : frameClass st = .sysex) (id : Byte) {body : List Byte} (hbody : bodyOk body = true) :
    decode (st :: id :: body) = .reject .unterminated := by
  simp only [decode, h, splitBody_of_bodyOk hbody]

end

/-- The state after a byte that does not complete its frame: the byte is added to those taken, the read stays open, and
only `status`, `data1`, the buffer and `phase` may differ. -/
structure Keeps (s : State) (b : Byte) (t : State) : Prop where
  taken : frameSoFar t = frameSoFar s ++ [b]
  stillOpen : t.phase.awaits = true
  frame : t = { s with status := t.status, data1 := t.data1, sxBuf := t.sxBuf, phase := t.phase }

/-- In an open read a byte makes the bytes taken a frame, and then its instruction runs; or they are no frame yet, and
then the byte is kept unless the buffer is full. -/
theorem onByte_decode {s : State} (h : RxInv s) (hopen : s.phase.awaits = true) (b : Byte) :
    (∃ i, decode (frameSoFar s ++ [b]) = .instr i [] ∧ onByte b s = exec i s) ∨
    (∃ e, decode (frameSoFar s ++ [b]) = .reject e) ∧
      ((s.phase = .sysExAccumulate ∧ s.params.sysexCap = some s.sxBuf.length) ∨ ∃ t, onByte b s = .next t ∧ Keeps s b t) := by
  have hbuf := h.bufEmpty
  have hsysex : s.phase = .sysExAccumulate → frameClass s.status = .sysex := fun hp =>
    (frameClass_sysex_iff _).2 (h.atSysEx hp)
  have hgrown : b ≠ terminator → bodyOk (s.sxBuf ++ [b]) = true := fun hb =>
    (bodyOk_append _ _).2 ⟨h.body, (bodyOk_cons _ _).2 ⟨hb, rfl⟩⟩
  rcases onByte_cases b s with ⟨hn, -⟩ | ⟨hp, hc, h'⟩ | ⟨hp, hc, h'⟩ | ⟨hp, hc, h'⟩ | ⟨hp, hc, h'⟩ | ⟨hp, hc, hc', h'⟩ |
    ⟨hp, h'⟩ | ⟨hp, rfl, h'⟩ | ⟨hp, hb, hc, h'⟩ | ⟨hp, hb, hc, h'⟩
  · rw [hopen] at hn; cases hn
  all_goals simp only [frameSoFar, hp, List.nil_append, List.cons_append]
  · exact .inl ⟨_, decode_alone hc [], h'.trans (exec_alone hc 0 0 [] s).symm⟩
  · exact .inr ⟨decode_first hc, .inr ⟨_, h', by simp [frameSoFar, hp], rfl, rfl⟩⟩
  · exact .inr ⟨⟨_, decode_unterminated hc b bodyOk_nil⟩, .inr ⟨_, h', by simp [frameSoFar, hp, hbuf], rfl, rfl⟩⟩
  · exact .inl ⟨_, decode_oneData hc b [], h'.trans (exec_oneData hc b 0 [] s).symm⟩
  · have htwo : frameClass s.status = .twoData := (h.keepData1 (b := b) hp ⟨hc, hc'⟩).atData2 rfl
    exact .inr ⟨⟨_, decode_missingData2 htwo b⟩, .inr ⟨_, h', by simp [frameSoFar, hp], rfl, rfl⟩⟩
  · have htwo := h.atData2 hp
    exact .inl ⟨_, decode_twoData htwo s.data1 b [], h'.trans (exec_twoData htwo s.data1 b [] s).symm⟩
  · have hc := hsysex hp
    exact .inl ⟨_, decode_sysex hc s.data1 h.body [], h'.trans (exec_sysex hc s.data1 0 s.sxBuf s).symm⟩
  · exact .inr ⟨⟨_, decode_unterminated (hsysex hp) s.data1 (hgrown hb)⟩, .inl ⟨trivial, hc⟩⟩
  · exact .inr ⟨⟨_, decode_unterminated (hsysex hp) s.data1 (hgrown hb)⟩,
      .inr ⟨_, h', by simp [frameSoFar, hp], by simp [hp, Phase.awaits], rfl⟩⟩

/-- Settles O29: the bytes decode to `i`, so of the two cases of `onByte_decode` it is the one that runs `i`. -/
theorem stepRunsTheDecodedInstruction : Obligations.StepRunsTheDecodedInstruction := by
  intro s b rest i h hopen hi hdecode
  rw [step_cons hi]
  rcases onByte_decode (s := { s with inputs := rest }) (h.of_eq rfl rfl rfl rfl rfl) hopen b with
    ⟨i', hi', hrun⟩ | ⟨⟨e, he⟩, -⟩
  · cases hi'.symm.trans hdecode; exact hrun
  · cases he.symm.trans hdecode

/-- Settles O30: the bytes are rejected and the buffer is not full, so `onByte_decode` leaves the case that keeps. -/
theorem stepKeepsAnUnfinishedFrame : Obligations.StepKeepsAnUnfinishedFrame := by
  intro s b rest e h hopen hi hdecode hroom
  rw [step_cons hi]
  rcases onByte_decode (s := { s with inputs := rest }) (h.of_eq rfl rfl rfl rfl rfl) hopen b with
    ⟨i, hi', -⟩ | ⟨-, ⟨hp, hfull⟩ | ⟨t, ht, hkeeps⟩⟩
  · cases hi'.symm.trans hdecode
  · exact absurd hfull (hroom hp)
  · exact ⟨t, ht, hkeeps.taken, hkeeps.stillOpen, hkeeps.frame⟩

/-- Settles O31: `run_frame`, the refinement by the class of the frame. -/
theorem readingAFrameRunsItsInstruction : Obligations.ReadingAFrameRunsItsInstruction := by
  intro i s rest hwf hp hbuf hi hcap
  exact run_frame hwf hp hbuf hi hcap

end Sys2Proof.Machine
end

section
/-! How a complete frame ends its read (spec/41_rx_framer.md R107 to R113): the record of every row in the numbers of the
frame's bytes, the filter for a legal frame, and the error of an ill-formed one. -/

namespace Sys2Proof.Machine

open Sys2Proof.Claims

/-! ### The filter -/

theorem channelOf_inj {c d : WireChannel} : channelOf c = channelOf d ↔ c = d :=
  ⟨fun h => by rw [← wireOf_channelOf c, h, wireOf_channelOf], congrArg channelOf⟩

@[simp] theorem statusOf_toNat_mod (n : Nibble) (c : WireChannel) : (statusOf n c).toNat % 16 = c.toNat := by
  rw [statusOf_toNat]; omega

@[simp] theorem statusOf_toNat_div (n : Nibble) (c : WireChannel) : (statusOf n c).toNat / 16 = n.toNat := by
  rw [statusOf_toNat]; omega

/-- The filter stops a channel message when it is not omni and its `ch` is not the low nibble of the status byte
(R111). -/
theorem not_passes_iff (f : Filter) (n : Nibble) (c : WireChannel) :
    f.passes (channelOf c) = false ↔ f.omni = false ∧ (statusOf n c).toNat % 16 ≠ f.ch.toNat := by
  rw [statusOf_toNat_mod, Ne, BitVec.toNat_inj, Filter.passes, Bool.or_eq_false_iff, beq_eq_false_iff_ne, Ne, channelOf_inj]

/-- What the filter makes of a constructed message, in the numbers of the status byte. -/
theorem channelResult_message (m : Message) (n : Nibble) (c : WireChannel) (f : Filter) :
    channelResult (.message m) c (statusOf n c) f =
      if f.omni = false ∧ (statusOf n c).toNat % 16 ≠ f.ch.toNat then RxResult.filtered (statusOf n c)
      else RxResult.message (normalise m) := by
  simp only [← not_passes_iff, channelResult]
  cases f.passes (channelOf c) <;> rfl

/-- A legal frame constructs its message: SysEx delivers it, the rest is left to the filter. -/
theorem resultOf_legal {i : Instr} (h : i.legal = true) (f : Filter) :
    (∃ m bs, encode i = sysexStart :: bs ∧ resultOf f i = RxResult.message m) ∨
    ∃ n c m bs, n ≠ 0xF ∧ encode i = statusOf n c :: bs ∧
      resultOf f i = channelResult (.message m) c (statusOf n c) f := by
  cases i with
  | noteOff c d1 d2 | noteOn c d1 d2 | polyAt c d1 d2 | ctrlChange c d1 d2 | pitchBend c d1 d2 =>
    obtain ⟨h1, h2⟩ : d1 ≤ 127 ∧ d2 ≤ 127 := by simpa [Instr.legal, sevenBit] using h
    exact .inr ⟨_, c, _, _, by decide, rfl, by rw [resultOf, build2_message_iff.2 ⟨h1, h2, rfl⟩]⟩
  | progChange c d1 | chanAt c d1 =>
    have h1 : d1 ≤ 127 := by simpa [Instr.legal, sevenBit] using h
    exact .inr ⟨_, c, _, _, by decide, rfl, by rw [resultOf, build1_message_iff.2 ⟨h1, rfl⟩]⟩
  | sysex id data =>
    obtain ⟨⟨h1, hne⟩, -⟩ : (id ≤ 127 ∧ data ≠ []) ∧ bodyOk data = true := by simpa [Instr.legal, sevenBit] using h
    exact .inl ⟨_, _, rfl, by rw [resultOf, buildSysEx_message_iff.2 ⟨h1, hne, rfl⟩]; rfl⟩
  | unrecData | unrecF1 | unrecF2F3 | unrecF4F7 | unrecF8FF => cases h

/-- Settles O18: a SysEx frame is delivered, a channel frame is left to `channelResult_message`. -/
theorem filterDecidesDelivery : Obligations.FilterDecidesDelivery := by
  intro i s hlegal
  obtain ⟨-, -, -, -, -, hinputs, -⟩ := latched_frame i s
  refine ⟨_, exec_eq i s, hinputs, fun st rest he => ?_⟩
  rw [endRead_result]
  rcases resultOf_legal hlegal s.filter with ⟨m, bs, he', hr⟩ | ⟨n, c, m, bs, hn, he', hr⟩ <;>
    obtain ⟨rfl, -⟩ := List.cons.inj (he.symm.trans he')
  · exact ⟨fun _ => by rw [hr]; rfl, fun h => absurd rfl h.1⟩
  · have hst : statusOf n c ≠ 0xF0 := fun h => hn (by rw [← typeNibble_statusOf n c, h]; rfl)
    rw [hr, channelResult_message]
    refine ⟨fun h => ?_, fun ⟨_, hstopped⟩ => if_pos hstopped⟩
    rw [if_neg fun ⟨homni, hch⟩ => by simp only [hst, homni, hch, Bool.false_eq_true, or_self] at h]
    rfl

/-! ### Ill-formed frames -/

theorem sevenBit_iff (b : Byte) : sevenBit b = true ↔ b ≤ 127 := decide_eq_true_iff

theorem build2_badField {d1 d2 : Byte} (h : (sevenBit d1 && sevenBit d2) = false) (mk : Data7 → Data7 → Message) :
    ∃ k, build2 mk d1 d2 = .badField k := by
  cases hb : build2 mk d1 d2 with
  | badField k => exact ⟨k, rfl⟩
  | message m =>
    obtain ⟨h1, h2, -⟩ := build2_message_iff.1 hb
    simp [(sevenBit_iff _).2 h1, (sevenBit_iff _).2 h2] at h

theorem build1_badField {d1 : Byte} (h : sevenBit d1 = false) (mk : Byte → Message) :
    ∃ k, build1 mk d1 = .badField k := by
  cases hb : build1 mk d1 with
  | badField k => exact ⟨k, rfl⟩
  | message m =>
    obtain ⟨h1, -⟩ := build1_message_iff.1 hb
    simp [(sevenBit_iff _).2 h1] at h

theorem buildSysEx_badField {id : Byte} {data : List Byte} (h : (sevenBit id && !data.isEmpty) = false) :
    ∃ k, buildSysEx id data = .badField k := by
  cases hb : buildSysEx id data with
  | badField k => exact ⟨k, rfl⟩
  | message m =>
    obtain ⟨h1, hne, -⟩ := buildSysEx_message_iff.1 hb
    simp [(sevenBit_iff _).2 h1, hne] at h

/-- A frame that is not legal ends in one error, whatever the filter (R113). -/
theorem resultOf_illegal {i : Instr} (hwf : i.wf = true) (h : i.legal = false) :
    ∃ r : RxResult, r.outcome = .error ∧ ∀ f, resultOf f i = r := by
  cases i with
  | noteOff c d1 d2 | noteOn c d1 d2 | polyAt c d1 d2 | ctrlChange c d1 d2 | pitchBend c d1 d2 =>
    obtain ⟨k, hk⟩ := build2_badField h _
    exact ⟨_, rfl, fun f => by rw [resultOf, hk]; rfl⟩
  | progChange c d1 | chanAt c d1 =>
    obtain ⟨k, hk⟩ := build1_badField h _
    exact ⟨_, rfl, fun f => by rw [resultOf, hk]; rfl⟩
  | sysex id data =>
    have hbody : bodyOk data = true := hwf
    have hfields : (sevenBit id && !data.isEmpty) = false := by simpa only [Instr.legal, hbody, Bool.and_true] using h
    obtain ⟨k, hk⟩ := buildSysEx_badField hfields
    exact ⟨RxResult.invalidField k sysexStart, rfl, fun f => by rw [resultOf, hk, sysExResult]⟩
  | unrecData | unrecF1 | unrecF2F3 | unrecF4F7 | unrecF8FF => exact ⟨_, rfl, fun _ => rfl⟩

/-- Settles O19: `resultOf_illegal` under both filters. -/
theorem errorOutranksTheFilter : Obligations.ErrorOutranksTheFilter := by
  intro i s f hwf hlegal
  obtain ⟨r, herror, hr⟩ := resultOf_illegal hwf hlegal
  refine ⟨_, _, exec_eq i s, exec_eq i { s with filter := f }, ?_, ?_⟩
  · rw [endRead_result, endRead_result, hr, hr]
  · rw [endRead_result, hr, herror]

/-! ### The record of a frame, in numbers -/

theorem low7_eq_seven (b : Byte) : low7 b = seven b := by revert b; decide

theorem channelOf_eq (c : WireChannel) : channelOf c = BitVec.ofNat 5 (c.toNat + 1) := by revert c; decide

theorem programOf_eq (w : Byte) : programOf w = BitVec.ofNat 8 (w.toNat + 1) := by revert w; decide

theorem lt_127_iff (b : Byte) : 127 < b ↔ b.toNat > 127 := Iff.rfl

theorem channelResult_build2 (mk : Data7 → Data7 → Message) (n : Nibble) (c : WireChannel) (d1 d2 : Byte) (f : Filter) :
    channelResult (build2 mk d1 d2) c (statusOf n c) f =
      twoFieldResult f (statusOf n c) d1 d2 (normalise (mk (seven d1) (seven d2))) := by
  unfold build2 twoFieldResult
  simp only [lt_127_iff, low7_eq_seven]
  split
  · rfl
  · split
    · rfl
    · exact channelResult_message _ n c f

theorem channelResult_build1 (mk : Byte → Message) (n : Nibble) (c : WireChannel) (d1 : Byte) (f : Filter) :
    channelResult (build1 mk d1) c (statusOf n c) f = oneFieldResult f (statusOf n c) d1 (normalise (mk d1)) := by
  unfold build1 oneFieldResult
  simp only [lt_127_iff]
  split
  · rfl
  · exact channelResult_message _ n c f

/-- The message matters only where both fields are in range. -/
theorem twoFieldResult_congr {f : Filter} {st d1 d2 : Byte} {m m' : Message} (h : d2 ≤ 127 → m = m') :
    twoFieldResult f st d1 d2 m = twoFieldResult f st d1 d2 m' := by
  unfold twoFieldResult
  split
  · rfl
  · split
    · rfl
    · next h2 => rw [h (BitVec.not_lt.1 h2)]

/-- The re-tag, in the number of the velocity byte (R109). -/
theorem normalise_noteOn (ch : Channel) (n : Data7) {v : Byte} (hv : v ≤ 127) :
    normalise (.noteOn ch n (seven v)) = if v.toNat = 0 then .noteOff ch n 0 else .noteOn ch n (seven v) := by
  by_cases h : v = 0
  · subst h; rfl
  · have hnum : v.toNat ≠ 0 := fun hn => h (BitVec.toNat_inj.1 hn)
    rw [normalise, ← low7_eq_seven, if_neg (low7_ne_zero hv h), if_neg hnum]

theorem ofNat_channel_inj (c d : WireChannel) :
    BitVec.ofNat 5 (c.toNat + 1) = BitVec.ofNat 5 (d.toNat + 1) ↔ c.toNat = d.toNat := by
  rw [← channelOf_eq, ← channelOf_eq, channelOf_inj, BitVec.toNat_inj]

/-- The record of a SysEx frame: the id is checked first, then that there is data (44_sysex.md R163). -/
theorem sysExResult_buildSysEx (id : Byte) (data : List Byte) :
    sysExResult (buildSysEx id data) =
      if id.toNat > 127 then RxResult.invalidField 1 sysexStart
      else if data.length = 0 then RxResult.invalidField 2 sysexStart
      else RxResult.message (.sysEx (seven id) data) := by
  unfold buildSysEx
  simp only [lt_127_iff, low7_eq_seven, List.length_eq_zero_iff]
  split
  · rfl
  · split <;> rfl

/-- Settles O23: a case split over the rows of the opcode table. Each row fixes the type nibble of `status`, so that one
branch of the pseudocode is left, and `resultOf` of the row is its record; 0xF1 to 0xFF are excluded. -/
theorem completionAlgorithm : Obligations.CompletionAlgorithm := by
  refine ⟨fun s hst => ?_, fun s b rest hi => ⟨fun hp hn => ?_, fun hp => step_second hi hp, ?_⟩⟩
  · rw [complete_eq]
    refine congrArg (fun r => Host.Outcome.next (endRead r s)) ?_
    generalize s.status = st at hst ⊢
    have inv := firstByte_opcodeOf st
    have hclass := frameClass_eq st
    have hne : opcodeOf st ≠ .sysex → st ≠ 0xF0 := mt (congrArg opcodeOf)
    unfold instrOf
    cases hop : opcodeOf st <;> rw [hop] at inv hclass hne <;> simp only [Opcode.firstByte] at inv <;> dsimp only
    case noteOff | polyAt | ctrlChange | pitchBend =>
      rw [if_neg (hne nofun), ← inv, wireChannel_statusOf, resultOf, channelResult_build2]
      simp [twoFieldResult, normalise, channelOf_eq, ofNat_channel_inj]
    case noteOn =>
      rw [if_neg (hne nofun), ← inv, wireChannel_statusOf, resultOf, channelResult_build2,
        twoFieldResult_congr (normalise_noteOn _ _)]
      simp [twoFieldResult, channelOf_eq, ofNat_channel_inj]
    case progChange | chanAt =>
      rw [if_neg (hne nofun), ← inv, wireChannel_statusOf, resultOf, channelResult_build1]
      simp [oneFieldResult, normalise, channelOf_eq, ofNat_channel_inj, programOf_eq, low7_eq_seven]
    case sysex =>
      subst inv
      rw [if_pos (show sysexStart = 0xF0 from rfl)]
      exact sysExResult_buildSysEx s.data1 s.sxBuf
    case unrecData =>
      have hnum : st.toNat < 128 := by rw [← inv, widen_toNat]; exact (low7 st).isLt
      rw [if_neg (hne nofun), if_pos (by omega), resultOf, inv]
      rfl
    case unrecF1 | unrecF2F3 | unrecF4F7 | unrecF8FF =>
      have hnum := (frameClass_alone_iff st).1 hclass
      exact absurd hst (by simp only [hne nofun, false_or]; omega)
  · exact step_oneData hi hp ((frameClass_oneData_iff _).2 (by omega))
  · rintro hp rfl
    exact step_terminator hi hp

end Sys2Proof.Machine
end

section
/-! The three-byte channel messages (spec/42_channel_3byte.md R130 to R135): the whole state a three-byte frame leaves, once
for every kind, and from it the next state of each row. -/

namespace Sys2Proof.Machine

open Sys2Proof.Claims

/-! ### A three-byte frame -/

theorem statusOf_eq (n : Nibble) (c : WireChannel) : statusOf n c = statusByte n.toNat c := by
  rw [statusByte, ← statusOf_toNat, BitVec.ofNat_toNat, BitVec.setWidth_eq]

/-- The state after a three-byte frame that ends with the message `m` where its fields are in range: the three bytes are
latched, the read has ended with the record of R107, the rest is kept. -/
def afterThreeByte (n : Nat) (c : WireChannel) (d1 d2 : Byte) (m : Message) (s : State) : State :=
  { s with
    status := statusByte n c, data1 := d1, data2 := d2, phase := .done,
    result := twoFieldResult s.filter (statusByte n c) d1 d2 m }

/-- Every kind with two fields ends so, with its own message, normalised. -/
theorem runThreeByte_eq (n : Nibble) (mk : Channel → Data7 → Data7 → Message) (c : WireChannel) (d1 d2 : Byte)
    (s : State) :
    runThreeByte n mk c d1 d2 s =
      afterThreeByte n.toNat c d1 d2 (normalise (mk (channel c) (seven d1) (seven d2))) s := by
  rw [runThreeByte, finishChannel_eq, channelResult_build2, statusOf_eq, channelOf_eq]
  rfl

theorem afterThreeByte_congr {n : Nat} {c : WireChannel} {d1 d2 : Byte} {m m' : Message} (h : d2 ≤ 127 → m = m')
    (s : State) : afterThreeByte n c d1 d2 m s = afterThreeByte n c d1 d2 m' s := by
  rw [afterThreeByte, twoFieldResult_congr h, afterThreeByte]

/-! ### The statements -/

/-- Settles O11: `runThreeByte_eq`, where the normalisation re-tags a velocity of 0 (R132). The velocity's number decides
this only where the byte is in range, and only there does the message matter. -/
theorem noteOnReceived : Obligations.NoteOnReceived := fun c n v s =>
  congrArg Host.Outcome.next <|
    (runThreeByte_eq 0x9 .noteOn c n v s).trans (afterThreeByte_congr (normalise_noteOn (channel c) (seven n)) s)

/-- Settles O10: `runThreeByte_eq`; the normalisation keeps a NoteOff. -/
theorem noteOffReceived : Obligations.NoteOffReceived := fun c n v s =>
  congrArg Host.Outcome.next (runThreeByte_eq 0x8 .noteOff c n v s)

/-- Settles O12: `runThreeByte_eq` for each of the three kinds, which the normalisation keeps. -/
theorem otherThreeByteKindsReceived : Obligations.OtherThreeByteKindsReceived := fun c d1 d2 s =>
  ⟨congrArg Host.Outcome.next (runThreeByte_eq 0xA .polyphonicAftertouch c d1 d2 s),
    congrArg Host.Outcome.next (runThreeByte_eq 0xB .controlChange c d1 d2 s),
    congrArg Host.Outcome.next (runThreeByte_eq 0xE .pitchBend c d1 d2 s)⟩

end Sys2Proof.Machine
end

section
/-! The two-byte channel messages (spec/43_channel_2byte.md R150, R151): the whole state a two-byte frame leaves, once for
both kinds, and from it the next state of each row. -/

namespace Sys2Proof.Machine

open Sys2Proof.Claims

/-! ### A two-byte frame -/

/-- The state after a two-byte frame that ends with the message `m` where its field is in range: the two bytes are latched,
the read has ended with the record of R107, the rest, `data2` with it, is kept. -/
def afterTwoByte (n : Nat) (c : WireChannel) (d1 : Byte) (m : Message) (s : State) : State :=
  { s with
    status := statusByte n c, data1 := d1, phase := .done,
    result := oneFieldResult s.filter (statusByte n c) d1 m }

/-- Both kinds with one field end so, each with its own message of the wire byte, normalised. -/
theorem runTwoByte_eq (n : Nibble) (mk : Channel → Byte → Message) (c : WireChannel) (d1 : Byte) (s : State) :
    runTwoByte n mk c d1 s = afterTwoByte n.toNat c d1 (normalise (mk (channel c) d1)) s := by
  rw [runTwoByte, finishChannel_eq, channelResult_build1, statusOf_eq, channelOf_eq]
  rfl

/-! ### The statements -/

/-- PROG_CHANGE: the program number is the wire byte plus 1, the offset applied once (R150). -/
theorem exec_progChange (c : WireChannel) (w : Byte) (s : State) :
    exec (.progChange c w) s =
      .next (afterTwoByte 0xC c w (.programChange (channel c) (BitVec.ofNat 8 (w.toNat + 1))) s) := by
  rw [exec, execProgChange, runTwoByte_eq, programOf_eq]
  rfl

/-- CHAN_AT: the pressure is the wire byte itself (R151). -/
theorem exec_chanAt (c : WireChannel) (p : Byte) (s : State) :
    exec (.chanAt c p) s = .next (afterTwoByte 0xD c p (.channelAftertouch (channel c) (seven p)) s) := by
  rw [exec, execChanAt, runTwoByte_eq, low7_eq_seven]
  rfl

/-- Settles O13: the next state of each of the two rows; `afterTwoByte` writes no `data2`. -/
theorem twoByteKindsReceived : Obligations.TwoByteKindsReceived := fun c d1 s =>
  ⟨exec_progChange c d1 s, exec_chanAt c d1 s⟩

end Sys2Proof.Machine
end

section
/-! SysEx (spec/44_sysex.md R162, R163): the loop that takes the data, the byte that ends the frame, and
the state a whole frame leaves. -/

namespace Sys2Proof.Machine

/-! ### Completion of a SysEx frame -/

/-- With 0xF0 latched, completion runs the SYSEX instruction of `data1` and `sx_buf`. -/
theorem complete_sysex {s : State} (hst : s.status = sysexStart) : complete s = exec (.sysex s.data1 s.sxBuf) s := by
  rw [complete, instrOf_sysex ((frameClass_sysex_iff s.status).2 hst)]

/-! ### The statements -/

/-- Settles O34: `run_sysEx_body`, whose condition of room an unbounded buffer always meets. -/
theorem sysExLoopCollectsEveryByte : Obligations.SysExLoopCollectsEveryByte := by
  intro body s rest hbody hp hcap hi
  have hroom : ∀ cap, s.params.sysexCap = some cap → s.sxBuf.length + body.length ≤ cap := by simp [hcap]
  exact run_sysEx_body ((bodyOk_iff body).2 hbody) hp hi hroom

/-- Settles O14: the record is that of `sysExResult_buildSysEx`, and 0xF7 completes the frame in the latches. -/
theorem sysExReceived : Obligations.SysExReceived := by
  refine ⟨fun id data s => ?_, fun s rest hp hst hi => ?_⟩
  · rw [exec_eq, resultOf, sysExResult_buildSysEx]
    rfl
  · exact (step_terminator hi hp).trans (complete_sysex hst)

/-- Settles O25: the byte is the terminator, or finds the buffer full, or is appended. -/
theorem sysExByteLoop : Obligations.SysExByteLoop := by
  intro s b rest hp hi
  by_cases hb : b = 0xF7
  · subst hb
    rw [if_pos rfl]
    exact step_terminator hi hp
  · rw [if_neg hb]
    by_cases hfull : s.params.sysexCap = some s.sxBuf.length
    · rw [if_pos hfull]
      exact step_overflow hi hp hb hfull
    · rw [if_neg hfull]
      exact step_append hi hp hb hfull

end Sys2Proof.Machine
end

section
/-! Unrecognized first bytes (spec/45_unrecognized.md R170, R171): the state that each of the five rows leaves, and a stray
data byte read from AwaitStatus. -/

namespace Sys2Proof.Machine

/-! ### The first byte of each row, as a number -/

theorem widen_eq_ofNat (x : Data7) : widen x = BitVec.ofNat 8 x.toNat := (BitVec.ofNat_toNat 8 x).symm

theorem unrecF2F3_byte : ∀ x : BitVec 1, 0b1111001#7 ++ x = BitVec.ofNat 8 (0xF2 + x.toNat) := by decide

theorem unrecF4F7_byte : ∀ x : BitVec 2, 0b111101#6 ++ x = BitVec.ofNat 8 (0xF4 + x.toNat) := by decide

theorem unrecF8FF_byte : ∀ x : BitVec 3, 0b11111#5 ++ x = BitVec.ofNat 8 (0xF8 + x.toNat) := by decide

/-- A first byte up to 127 and any two bytes after it are the frame of UNREC_DATA with that byte's low seven bits. -/
theorem instrOf_data {b : Byte} (h : b ≤ 127) (b1 b2 : Byte) (data : List Byte) :
    instrOf b b1 b2 data = .unrecData (low7 b) b1 b2 :=
  instrOf_encode (.unrecData (low7 b) b1 b2) b b1 b2 data (congrArg ([·, b1, b2]) (widen_low7 b h))

/-! ### The state each row leaves -/

/-- The state after a first byte up to 127 and the two bytes after it: the three are latched, the read has ended with
`UnrecognizedStatus` and the first, the rest is kept. -/
def afterData (b b1 b2 : Byte) (s : State) : State :=
  endRead (RxResult.unrecognized b) (latchData2 b2 (latchData1 b1 (latchStatus b s)))

theorem exec_unrecData (x : Data7) (b1 b2 : Byte) (s : State) :
    exec (.unrecData x b1 b2) s = .next (afterData (widen x) b1 b2 s) := exec_eq _ s

/-- Of the four rows without data bytes, each refuses its own byte by `runAlone` (R171). -/
theorem exec_unrecF1 (s : State) : exec .unrecF1 s = .next (runAlone 0xF1 s) := exec_eq _ s

theorem exec_unrecF2F3 (x : BitVec 1) (s : State) :
    exec (.unrecF2F3 x) s = .next (runAlone (BitVec.ofNat 8 (0xF2 + x.toNat)) s) := by
  rw [← unrecF2F3_byte]
  exact exec_eq _ s

theorem exec_unrecF4F7 (x : BitVec 2) (s : State) :
    exec (.unrecF4F7 x) s = .next (runAlone (BitVec.ofNat 8 (0xF4 + x.toNat)) s) := by
  rw [← unrecF4F7_byte]
  exact exec_eq _ s

theorem exec_unrecF8FF (x : BitVec 3) (s : State) :
    exec (.unrecF8FF x) s = .next (runAlone (BitVec.ofNat 8 (0xF8 + x.toNat)) s) := by
  rw [← unrecF8FF_byte]
  exact exec_eq _ s

/-! ### The statements -/

/-- Settles O15: `exec_unrecData`, the first byte as a number. -/
theorem unrecognizedDataReceived : Obligations.UnrecognizedDataReceived := by
  intro x b1 b2 s
  rw [exec_unrecData, widen_eq_ofNat]
  rfl

/-- Settles O16: each of the four rows is `runAlone` at its byte, which writes `status`, `result` and `phase`. -/
theorem unrecognizedSystemByteReceived : Obligations.UnrecognizedSystemByteReceived := fun s =>
  ⟨exec_unrecF1 s, fun x => exec_unrecF2F3 x s, fun x => exec_unrecF4F7 x s, fun x => exec_unrecF8FF x s⟩

/-- Settles O35: the three steps read a frame of class `twoData` (`run_twoData`), whose instruction is UNREC_DATA. -/
theorem strayDataByteCostsThree : Obligations.StrayDataByteCostsThree := by
  intro b b1 b2 s rest hb hp hi
  have hdata : b ≤ 127 := hb
  have hclass : frameClass b = .twoData := (frameClass_twoData_iff b).2 (by omega)
  rw [run_twoData hclass hp hi, ← exec_twoData hclass b1 b2 [], instrOf_data hdata, exec_unrecData, widen_low7 b hdata]
  rfl

end Sys2Proof.Machine
end

section
/-! The TX serializer (spec/46_tx_serializer.md R180 to R192): the tests of `Validate` as numbers, the bytes of a plain and of
a broadcast send, and a whole send operation, one byte a step. -/

namespace Sys2Proof.Machine

/-! ### Validation -/

/-- Field 1 of a command is out of its range: 1 to 128 for ProgramChange, 0 to 127 for the other kinds (R182). -/
abbrev Command.Field1Bad (c : Command) : Prop :=
  if c.kind = .programChange then c.f1.toNat < 1 ∨ c.f1.toNat > 128 else c.f1.toNat > 127

/-- Field 2, or the SysEx data in its place, is out of its range; the two-byte kinds have none (R180, R182, R183). -/
abbrev Command.Field2Bad (c : Command) : Prop :=
  ((c.kind ≠ .programChange ∧ c.kind ≠ .channelAftertouch ∧ c.kind ≠ .sysEx) ∧ c.f2.toNat > 127) ∨
  (c.kind = .sysEx ∧ (c.data.length = 0 ∨ (0xF7 : Byte) ∈ c.data))

/-- The channel is out of [1,16], for a kind that has one (R182). -/
abbrev Command.ChannelBad (c : Command) : Prop := c.kind ≠ .sysEx ∧ (c.channel.toNat < 1 ∨ c.channel.toNat > 16)

/-- The first field that fails, as R182 orders the tests. -/
theorem badField_eq (c : Command) :
    badField c = if c.Field1Bad then some 1 else if c.Field2Bad then some 2 else none := by
  obtain ⟨kind, channel, f1, f2, data⟩ := c
  cases kind with
  | noteOff | noteOn | polyphonicAftertouch | controlChange | pitchBend | programChange | channelAftertouch =>
    simp [badField, Command.Field1Bad, Command.Field2Bad, BitVec.lt_def]
  | sysEx =>
    have hdata : 0xF7#8 ∈ data ↔ ¬bodyOk data = true := by rw [bodyOk_iff, not_not]; rfl
    by_cases hne : data = [] <;> by_cases hok : bodyOk data = true <;>
      simp [badField, Command.Field1Bad, Command.Field2Bad, BitVec.lt_def, hdata, hne, hok]

theorem validate_eq (c : Command) :
    validate c = if c.Field1Bad then .invalidField 1 else if c.Field2Bad then .invalidField 2
      else if c.ChannelBad then .invalidChannel else .message (commandMessage c) := by
  have hch : (c.kind ≠ .sysEx ∧ (c.channel < 1 ∨ 16 < c.channel)) ↔ c.ChannelBad := Iff.rfl
  rw [validate, badField_eq]
  by_cases h1 : c.Field1Bad
  · rw [if_pos h1, if_pos h1]
  · rw [if_neg h1, if_neg h1]
    by_cases h2 : c.Field2Bad
    · rw [if_pos h2, if_pos h2]
    · rw [if_neg h2, if_neg h2]
      exact if_congr hch rfl rfl

/-- A command validates exactly when nothing is out of range, and then to the message it names. -/
theorem validate_message_iff {c : Command} {m : Message} :
    validate c = .message m ↔ ¬c.Field1Bad ∧ ¬c.Field2Bad ∧ ¬c.ChannelBad ∧ commandMessage c = m := by
  rw [validate_eq]
  split_ifs with h1 h2 h3
  · exact iff_of_false nofun fun ⟨h, _⟩ => h h1
  · exact iff_of_false nofun fun ⟨_, h, _⟩ => h h2
  · exact iff_of_false nofun fun ⟨_, _, h, _⟩ => h h3
  · exact ⟨fun h => ⟨h1, h2, h3, Validated.message.inj h⟩, fun ⟨_, _, _, h⟩ => congrArg _ h⟩

/-- A channel that passes keeps its number in 5 bits, and is in range there. -/
theorem Command.channel_ok {c : Command} (h : ¬c.ChannelBad) (hk : c.kind ≠ .sysEx) :
    (c.channel.setWidth 5).toNat = c.channel.toNat ∧ channelOk (c.channel.setWidth 5) = true := by
  have hrange : ¬(c.channel.toNat < 1 ∨ c.channel.toNat > 16) := fun h' => h ⟨hk, h'⟩
  have hn : (c.channel.setWidth 5).toNat = c.channel.toNat := by rw [BitVec.toNat_setWidth]; omega
  exact ⟨hn, (channelOk_iff _).2 (by omega)⟩

theorem low7_toNat {b : Byte} (h : ¬b.toNat > 127) : (low7 b).toNat = b.toNat := by
  rw [← widen_toNat, widen_low7 b (BitVec.not_lt.1 h)]

theorem commandMessage_tag (c : Command) : (commandMessage c).tag = c.kind := by
  obtain ⟨kind, channel, f1, f2, data⟩ := c
  cases kind <;> rfl

/-- A command of a kind other than SysEx names its own channel. -/
theorem commandMessage_channel {c : Command} (h : c.kind ≠ .sysEx) :
    (commandMessage c).channel? = some (c.channel.setWidth 5) := by
  obtain ⟨kind, channel, f1, f2, data⟩ := c
  cases kind with
  | sysEx => exact absurd rfl h
  | noteOff | noteOn | polyphonicAftertouch | controlChange | programChange | channelAftertouch | pitchBend => rfl

theorem commandMessage_valid {c : Command} (h1 : ¬c.Field1Bad) (h2 : ¬c.Field2Bad) (h3 : ¬c.ChannelBad) :
    (commandMessage c).valid = true := by
  obtain ⟨kind, channel, f1, f2, data⟩ := c
  have hch := fun hk => (Command.channel_ok h3 hk).2
  cases kind with
  | noteOff | noteOn | polyphonicAftertouch | controlChange | channelAftertouch | pitchBend => exact hch nofun
  | programChange =>
    have hp : ¬(f1.toNat < 1 ∨ f1.toNat > 128) := h1
    have hlow : 1 ≤ f1 := Nat.not_lt.1 fun h => hp (.inl h)
    have hhigh : f1 ≤ 128 := Nat.not_lt.1 fun h => hp (.inr h)
    exact (valid_programChange_iff _ _).2 ⟨hch nofun, hlow, hhigh⟩
  | sysEx =>
    have hdata : ¬(data.length = 0 ∨ terminator ∈ data) := fun h => h2 (.inr ⟨rfl, h⟩)
    rw [not_or] at hdata
    exact (valid_sysEx_iff _ _).2 ⟨fun h => hdata.1 (congrArg List.length h), (bodyOk_iff data).2 hdata.2⟩

/-- Settles O36: the tests of `validate_eq` in their order; past the last the message is the command's. -/
theorem validationOrder : Obligations.ValidationOrder := by
  intro c twoFields bad1 bad2 badChannel
  change (c.Field1Bad → _) ∧ (¬c.Field1Bad ∧ c.Field2Bad → _) ∧ (¬c.Field1Bad ∧ ¬c.Field2Bad ∧ c.ChannelBad → _) ∧
    (¬c.Field1Bad ∧ ¬c.Field2Bad ∧ ¬c.ChannelBad → _)
  refine ⟨fun h1 => ?_, fun ⟨h1, h2⟩ => ?_, fun ⟨h1, h2, h3⟩ => ?_, fun ⟨h1, h2, h3⟩ => ?_⟩
  · rw [validate_eq, if_pos h1]
  · rw [validate_eq, if_neg h1, if_pos h2]
  · rw [validate_eq, if_neg h1, if_neg h2, if_pos h3]
  · exact ⟨commandMessage c, validate_message_iff.2 ⟨h1, h2, h3, rfl⟩, commandMessage_valid h1 h2 h3, commandMessage_tag c,
      commandMessage_channel⟩

/-! ### The bytes of a send -/

/-- A plain send is the content of the message (R185, R187). -/
theorem outBytes_plain (m : Message) : outBytes m false = m.content := if_pos (.inr rfl)

/-- Broadcast mode has no effect on SysEx (R187). -/
theorem outBytes_sysEx {m : Message} (h : m.tag = .sysEx) (bcast : Bool) : outBytes m bcast = m.content := if_pos (.inl h)

theorem outBytes_broadcast {m : Message} (h : m.tag ≠ .sysEx) :
    outBytes m true = allChannels.flatMap fun ch => (m.withChannel ch).content := if_neg (by simp [h])

/-- On another channel only the status byte differs (R186). -/
theorem withChannel_content {m : Message} (h : m.tag ≠ .sysEx) (ch : Channel) :
    (m.withChannel ch).content = statusOf m.tag.nibble (wireOf ch) :: m.body := by
  cases m with
  | sysEx => exact absurd rfl h
  | noteOff | noteOn | polyphonicAftertouch | controlChange | programChange | channelAftertouch | pitchBend => rfl

theorem allChannels_eq : allChannels = (List.range 16).map fun k => BitVec.ofNat 5 (k + 1) := by decide

/-- The type nibble of a channel kind is its tag number plus 8 (30_encoding.md R62). -/
theorem nibble_toNat {t : KindTag} (h : t ≠ .sysEx) : t.nibble.toNat = t.code.toNat + 8 := by
  cases t with
  | sysEx => exact absurd rfl h
  | noteOff | noteOn | polyphonicAftertouch | controlChange | programChange | channelAftertouch | pitchBend => rfl

/-- The status byte of the `k`-th frame of a broadcast. -/
theorem broadcast_status {t : KindTag} (h : t ≠ .sysEx) {k : Nat} (hk : k < 16) :
    statusOf t.nibble (wireOf (BitVec.ofNat 5 (k + 1))) = BitVec.ofNat 8 (16 * (t.code.toNat + 8) + k) := by
  have hch : (BitVec.ofNat 5 (k + 1)).toNat = k + 1 := by rw [BitVec.toNat_ofNat]; omega
  have hwire : (wireOf (BitVec.ofNat 5 (k + 1))).toNat = k := by rw [wireOf_toNat ((channelOk_iff _).2 (by omega))]; omega
  rw [statusOf_eq, Claims.statusByte, hwire, nibble_toNat h]

/-- Settles O38: frame by frame, `broadcast_status` and the body of the plain frame. -/
theorem broadcastRepeatsTheFrame : Obligations.BroadcastRepeatsTheFrame := by
  refine fun m => ⟨fun h => (outBytes_sysEx h true).trans (outBytes_sysEx h false).symm, fun h => ?_⟩
  rw [outBytes_broadcast h, outBytes_plain, allChannels_eq, List.flatMap_map]
  refine List.flatMap_congr fun k hk => ?_
  rw [withChannel_content h, broadcast_status h (List.mem_range.1 hk)]
  rfl

/-- The status byte of the message a command names (R180, R185). -/
theorem commandMessage_status {c : Command} (hm : (commandMessage c).valid = true) (h : ¬c.ChannelBad)
    (hk : c.kind ≠ .sysEx) : (commandMessage c).statusByte.toNat = 16 * c.kind.nibble.toNat + (c.channel.toNat - 1) := by
  rw [statusByte_toNat hm (commandMessage_channel hk), commandMessage_tag, (Command.channel_ok h hk).1]

/-- Settles O37: the content of the validated message (O8), whose numbers are those of the command. -/
theorem plainSendBytes : Obligations.PlainSendBytes := by
  intro c m hv
  obtain ⟨h1, h2, h3, rfl⟩ := validate_message_iff.1 hv
  have hm := commandMessage_valid h1 h2 h3
  have hcontent := contentOfMessage _ hm
  rw [outBytes_plain]
  have hst := commandMessage_status hm h3
  obtain ⟨kind, channel, f1, f2, data⟩ := c
  cases kind with
  | noteOff | noteOn | polyphonicAftertouch | controlChange | pitchBend =>
    have hf2 : ¬f2.toNat > 127 := fun h => h2 (.inl ⟨by simp, h⟩)
    exact hcontent.trans (by rw [hst nofun, low7_toNat h1, low7_toNat hf2]; rfl)
  | programChange => exact hcontent.1.trans (by rw [hst nofun]; rfl)
  | channelAftertouch => exact hcontent.trans (by rw [hst nofun, low7_toNat h1]; rfl)
  | sysEx => exact hcontent.trans (by rw [low7_toNat h1])

/-- Each of the sixteen frames of a broadcast is as long as the plain one (R189). -/
theorem broadcast_length {m : Message} (h : m.tag ≠ .sysEx) : (outBytes m true).length = 16 * m.content.length := by
  have hframe : ∀ ch, (m.withChannel ch).content.length = m.content.length := fun ch => by
    rw [withChannel_content h]; rfl
  simp only [outBytes_broadcast h, List.length_flatMap, hframe, List.map_const', List.sum_replicate]
  rfl

/-- Settles O39: the length of the content, sixteen times that in a broadcast. -/
theorem sendLengths : Obligations.SendLengths := by
  intro m bcast
  cases m with
  | sysEx id data =>
    rw [outBytes_sysEx rfl]
    simp [Message.content, Message.body]
  | noteOff | noteOn | polyphonicAftertouch | controlChange | programChange | channelAftertouch | pitchBend =>
    cases bcast with
    | false => rfl
    | true => exact broadcast_length nofun

/-! ### Steps of a send operation -/

/-- Settles O40: `openSend`, field by field. -/
theorem validSendLoadsTheQueue : Obligations.ValidSendLoadsTheQueue :=
  fun _ _ _ _ _ hq hi hv => step_send hi hq hv

/-- Settles O41: `raiseTx` with the outcome of each cause. -/
theorem invalidSendWritesNothing : Obligations.InvalidSendWritesNothing :=
  fun _ _ _ _ hq hi => ⟨fun _ hv => step_send_field hi hq hv, fun hv => step_send_channel hi hq hv⟩

/-- The state after the sink has taken the bytes `bs` one by one and `queued` is left: the sink holds them, the count is that
much higher, and with the last byte of the operation the outcome is `Sent` (R188, R189). -/
def afterTakes (bs queued : List Byte) (s : State) : State :=
  { s with
    sink := s.sink ++ bs, txQueue := queued, txCount := countTo s.params (s.txCount + bs.length)
    txResult := if queued = [] then TxResult.sent (countTo s.params (s.txCount + bs.length)) else s.txResult }

theorem takeByte_eq (b : Byte) (queued : List Byte) (s : State) : takeByte b queued s = afterTakes [b] queued s := by
  cases queued <;> rfl

/-- Settles O42: `takeByte` as one record. -/
theorem sinkTakesTheHead : Obligations.SinkTakesTheHead := fun s b queued rest hq hi =>
  (step_sinkTake hi hq).trans (congrArg _ (takeByte_eq b queued { s with inputs := rest }))

/-- A byte taken before the others. -/
theorem afterTakes_cons (b c : Byte) (bs : List Byte) (s : State) :
    afterTakes (c :: bs) [] (takeByte b (c :: bs) s) = afterTakes (b :: c :: bs) [] s := by
  have hcount : countTo s.params (countTo s.params (s.txCount + 1) + (bs.length + 1)) =
      countTo s.params (s.txCount + (bs.length + 1 + 1)) :=
    (countTo_add _ _ _).trans (congrArg _ (by omega))
  simp [afterTakes, takeByte_eq, hcount]

/-- The sink takes a whole queue, one byte a step (R188, R192). -/
theorem run_sinkTakes {b : Byte} {bs : List Byte} {s : State} {rest : List Event} (hq : s.txQueue = b :: bs)
    (hi : s.inputs = List.replicate (b :: bs).length .sinkTake ++ rest) :
    run (b :: bs).length s = .next (afterTakes (b :: bs) [] { s with inputs := rest }) := by
  induction bs generalizing b s with
  | nil => exact (run_next 0 (step_sinkTake (rest := rest) hi hq)).trans (congrArg _ (takeByte_eq ..))
  | cons c bs ih =>
    rw [List.length_cons, run_next _ (step_sinkTake hi hq), ih (takeByte_txQueue ..) (takeByte_inputs ..),
      ← afterTakes_cons]
    rfl

/-- Settles O43: one step loads the queue, the sink then takes it whole. -/
theorem sendDeliversTheWholeSequence : Obligations.SendDeliversTheWholeSequence := by
  intro s c m bcast rest hq hv hi
  obtain ⟨b, bs, hout⟩ := List.exists_cons_of_ne_nil (outBytes_ne_nil m bcast)
  rw [run_next _ (step_send hi hq hv), hout]
  rw [hout] at hi
  refine (run_sinkTakes rfl rfl).trans ?_
  rw [afterTakes, openSend_txCount, Nat.zero_add]
  rfl

end Sys2Proof.Machine
end

section
/-! How an operation ends and how the next one opens (spec/60_exceptions.md R200, R210, R213): what a complete frame writes
beside its outcome, and that two reads opened alike stay alike whatever the blocks held before. -/

namespace Sys2Proof.Machine

/-! ### What the latching of a frame leaves alone -/

/-- Only SYSEX writes the buffer (10_state.md R15). -/
theorem latched_sxBuf {i : Instr} (h : i.opcode ≠ .sysex) (s : State) : (latched i s).sxBuf = s.sxBuf := by
  cases i with
  | sysex => exact absurd rfl h
  | _ => rfl

/-- A row without a second data byte leaves `data2` alone (10_state.md R12). -/
theorem latched_data2 {i : Instr} (h : i.opcode.frameClass ≠ .twoData) (s : State) : (latched i s).data2 = s.data2 := by
  cases i with
  | noteOff | noteOn | polyAt | ctrlChange | pitchBend | unrecData => exact absurd rfl h
  | progChange | chanAt | sysex | unrecF1 | unrecF2F3 | unrecF4F7 | unrecF8FF => rfl

/-- A row of one byte leaves `data1` alone (10_state.md R12). -/
theorem latched_data1 {i : Instr} (h : i.opcode.frameClass = .alone) (s : State) : (latched i s).data1 = s.data1 := by
  cases i with
  | unrecF1 | unrecF2F3 | unrecF4F7 | unrecF8FF => rfl
  | noteOff | noteOn | polyAt | ctrlChange | progChange | chanAt | pitchBend | sysex | unrecData => cases h

/-- Settles O17: `exec_eq` ends the read on the latched frame, and the frames of `latched` say what stays. -/
theorem everyFrameEndsTheReadAndKeepsTheRest : Obligations.EveryFrameEndsTheReadAndKeepsTheRest := by
  intro i s
  obtain ⟨hfilter, hqueue, hcount, htx, hparams, hinputs, hsink⟩ := latched_frame i s
  refine ⟨_, exec_eq i s, rfl, resultOf_outcome s.filter i, hfilter, hqueue, hcount, htx, hparams, hinputs, hsink,
    fun h => latched_sxBuf h s, fun h => latched_data2 ?_ s, fun h => ?_⟩
  · rcases h with h | h | h <;> rw [h] <;> decide
  · have halone : i.opcode.frameClass = .alone := by rcases h with h | h | h | h <;> rw [h] <;> rfl
    exact ⟨latched_data1 halone s, latched_data2 (by simp [halone]) s⟩

/-! ### Two reads that see the same -/

/-- What the rest of a read operation depends on is the same in `s` and `t`: `status` only once its byte has come, `data1`
only past AwaitData1, `data2` and the TX unit never. -/
structure ReadsAlike (s t : State) : Prop where
  phase : t.phase = s.phase
  result : t.result = s.result
  inputs : t.inputs = s.inputs
  filter : t.filter = s.filter
  sxBuf : t.sxBuf = s.sxBuf
  cap : t.params.sysexCap = s.params.sysexCap
  status : s.phase = .awaitData1 ∨ s.phase = .awaitData2 ∨ s.phase = .sysExAccumulate → t.status = s.status
  data1 : s.phase = .awaitData2 ∨ s.phase = .sysExAccumulate → t.data1 = s.data1

section
variable {s t : State}

theorem readsAlike_openRead (f : Filter) (hinputs : t.inputs = s.inputs) (hcap : t.params.sysexCap = s.params.sysexCap) :
    ReadsAlike (openRead f s) (openRead f t) where
  phase := rfl
  result := rfl
  inputs := hinputs
  filter := rfl
  sxBuf := rfl
  cap := hcap
  status := by simp
  data1 := by simp

theorem ReadsAlike.withInputs (h : ReadsAlike s t) (rest : List Event) :
    ReadsAlike { s with inputs := rest } { t with inputs := rest } :=
  { h with inputs := rfl }

theorem ReadsAlike.latchStatus_both (h : ReadsAlike s t) (b : Byte) :
    ReadsAlike (latchStatus b s) (latchStatus b t) :=
  { h with status := fun _ => rfl }

theorem ReadsAlike.latchData1_both (h : ReadsAlike s t) (b : Byte) :
    ReadsAlike (latchData1 b s) (latchData1 b t) :=
  { h with data1 := fun _ => rfl }

theorem ReadsAlike.latchData2_both (h : ReadsAlike s t) (b : Byte) :
    ReadsAlike (latchData2 b s) (latchData2 b t) :=
  { h with }

theorem ReadsAlike.setBuf_both (h : ReadsAlike s t) (bs : List Byte) : ReadsAlike (setBuf bs s) (setBuf bs t) :=
  { h with sxBuf := rfl }

/-- AwaitData1 is the one later phase entered before `data1` is latched. -/
theorem ReadsAlike.goto_both (h : ReadsAlike s t) (p : Phase) (hstatus : t.status = s.status)
    (hdata1 : p ≠ .awaitData1 → t.data1 = s.data1) : ReadsAlike (goto p s) (goto p t) :=
  { h with
    phase := rfl
    status := fun _ => hstatus
    data1 := fun hp => hdata1 fun hp' => by simp [hp'] at hp }

theorem ReadsAlike.endRead_both (h : ReadsAlike s t) (r : RxResult) : ReadsAlike (endRead r s) (endRead r t) :=
  { h with phase := rfl, result := rfl, status := by simp, data1 := by simp }

/-- Frames complete alike when the bytes that their class has are the same in both. -/
theorem ReadsAlike.completed_both (h : ReadsAlike s t) (hstatus : t.status = s.status)
    (hdata1 : frameClass s.status ≠ .alone → t.data1 = s.data1)
    (hdata2 : frameClass s.status = .twoData → t.data2 = s.data2) : ReadsAlike (completed s) (completed t) := by
  have hinstr : instrOf t.status t.data1 t.data2 t.sxBuf = instrOf s.status s.data1 s.data2 s.sxBuf := by
    rw [hstatus, h.sxBuf]
    exact instrOf_congr _ _ _ _ _ _ _ hdata1 hdata2 fun _ => rfl
  rw [completed, completed, hinstr, h.filter]
  exact h.endRead_both _

/-! ### One answer of the source -/

/-- A byte that `s` takes `t` takes by the same rule; the invariant rules out what no first byte leads to. -/
theorem ReadsAlike.onByte_follows {s' : State} {b : Byte} (h : ReadsAlike s t) (hinv : RxInv s) (hs : onByte b s = .next s') :
    ∃ t', onByte b t = .next t' ∧ ReadsAlike s' t' := by
  have hphase := h.phase
  cases onByte_moves hs with
  | first _ hp hc =>
    exact ⟨_, onByte_first (hphase.trans hp) hc, (h.latchStatus_both b).goto_both _ rfl nofun⟩
  | alone _ hp hc =>
    exact ⟨_, (onByte_alone (hphase.trans hp) hc).trans (complete_completed _),
      (h.latchStatus_both b).completed_both rfl (absurd hc) fun h2 => nomatch hc.symm.trans h2⟩
  | id _ hp hc =>
    have hst := h.status (.inl hp)
    exact ⟨_, onByte_id (hphase.trans hp) (hst ▸ hc), (h.latchData1_both b).goto_both _ hst fun _ => rfl⟩
  | oneData _ hp hc =>
    have hst := h.status (.inl hp)
    exact ⟨_, (onByte_oneData (hphase.trans hp) (hst ▸ hc)).trans (complete_completed _),
      (h.latchData1_both b).completed_both hst (fun _ => rfl) fun h2 => nomatch hc.symm.trans h2⟩
  | data1 _ hp hc =>
    have hst := h.status (.inl hp)
    have htwo : frameClass s.status = .twoData := (hinv.keepData1 (b := b) hp hc).atData2 rfl
    exact ⟨_, onByte_twoData (hphase.trans hp) (hst ▸ htwo), (h.latchData1_both b).goto_both _ hst fun _ => rfl⟩
  | data2 _ hp =>
    exact ⟨_, (onByte_second (hphase.trans hp)).trans (complete_completed _),
      (h.latchData2_both b).completed_both (h.status (.inr (.inl hp))) (fun _ => h.data1 (.inl hp)) fun _ => rfl⟩
  | terminator hp =>
    have hc : frameClass s.status = .sysex := (frameClass_sysex_iff _).2 (hinv.atSysEx hp)
    exact ⟨_, (onByte_terminator (hphase.trans hp)).trans (complete_completed _),
      h.completed_both (h.status (.inr (.inr hp))) (fun _ => h.data1 (.inr hp)) fun h2 => nomatch hc.symm.trans h2⟩
  | overflow _ hp hb hc =>
    exact ⟨_, onByte_overflow (hphase.trans hp) hb (by rw [h.cap, h.sxBuf, hc]), h.endRead_both _⟩
  | append _ hp hb hc =>
    refine ⟨_, onByte_append (hphase.trans hp) hb (by rw [h.cap, h.sxBuf]; exact hc), ?_⟩
    rw [h.sxBuf]
    exact h.setBuf_both _

/-- A cut reads `status` only after its byte has come. -/
theorem ReadsAlike.onCut_follows {s' : State} {e : Event} {reason : Cause} (h : ReadsAlike s t)
    (hs : onCut e reason s = .next s') : ∃ t', onCut e reason t = .next t' ∧ ReadsAlike s' t' := by
  rw [onCut_eq] at hs
  rw [onCut_eq, h.phase]
  split_ifs at hs ⊢ with hfirst hopen
  · cases hs
    exact ⟨_, rfl, h.endRead_both _⟩
  · cases hs
    rw [h.status (((awaits_iff _).1 hopen).resolve_left hfirst)]
    exact ⟨_, rfl, h.endRead_both _⟩

theorem ReadsAlike.handle_follows {s' : State} {e : Event} (h : ReadsAlike s t) (hinv : RxInv s) (he : e.isAnswer = true)
    (hs : handle e s = .next s') : ∃ t', handle e t = .next t' ∧ ReadsAlike s' t' := by
  cases e with
  | byte b => exact h.onByte_follows hinv hs
  | timeout => exact h.onCut_follows (e := .timeout) hs
  | ended => exact h.onCut_follows (e := .ended) hs
  | reset | readStart | send | sinkTake => cases he

/-! ### Whole runs -/

/-- As long as only answers of the source come, two reads that are alike step together. -/
theorem ReadsAlike.run_follows {s' : State} {k : Nat} (h : ReadsAlike s t) (hinv : RxInv s)
    (hanswers : ∀ e ∈ s.inputs, e.isAnswer = true) (hs : run k s = .next s') :
    ∃ t', run k t = .next t' ∧ ReadsAlike s' t' := by
  induction k generalizing s t with
  | zero => cases hs; exact ⟨t, rfl, h⟩
  | succ k ih =>
    obtain ⟨u, hu, hrun⟩ := run_succ_next hs
    cases hi : s.inputs with
    | nil =>
      cases (step_nil hi).symm.trans hu
      rw [run_next k (step_nil (h.inputs.trans hi))]
      exact ih h hinv hanswers hrun
    | cons e rest =>
      rw [hi, List.forall_mem_cons] at hanswers
      obtain ⟨he, hrest⟩ := hanswers
      have hhandle := (step_cons hi).symm.trans hu
      have hinv' : RxInv { s with inputs := rest } := hinv.of_eq rfl rfl rfl rfl rfl
      have hmoves := handle_moves hhandle
      obtain ⟨v, hv, hsame⟩ := (h.withInputs rest).handle_follows hinv' he hhandle
      rw [run_next k ((step_cons (h.inputs.trans hi)).trans hv)]
      exact ih hsame (hmoves.keeps_rxInv hinv') (by rw [hmoves.inputs_eq]; exact hrest) hrun

end

/-- Settles O51: the opening steps leave two reads that are alike, and they stay so. -/
theorem readOwesNothingToTheOneBefore : Obligations.ReadOwesNothingToTheOneBefore := by
  intro s t f answers k s' hps hpt hcap hanswers his hit hs
  rw [run_next k (readStartOpensARead s f answers hps his)] at hs
  rw [run_next k (readStartOpensARead t f answers hpt hit)]
  have halike := readsAlike_openRead (s := { s with inputs := answers }) (t := { t with inputs := answers }) f rfl hcap.symm
  obtain ⟨t', ht', hsame⟩ := halike.run_follows (rxInv_openRead f _) hanswers hs
  exact ⟨t', ht', hsame.phase, hsame.result, hsame.inputs⟩

end Sys2Proof.Machine
end

section
/-! Reset and waiting (spec/70_reset_and_hazards.md R230, R240, R246; 60_exceptions.md R218): the one event that has a step in
every state, and runs with no event to come. -/

namespace Sys2Proof.Machine

/-- `Reset` has a step whatever the state is (10_state.md R31). -/
theorem step_reset {s : State} {rest : List Event} (hi : s.inputs = .reset :: rest) :
    step s = .next (resetBlock { s with inputs := rest }) :=
  step_cons hi

/-- Settles O45: the step is `resetBlock`, whose fields `Laws/State` gives. -/
theorem resetFromEveryState : Obligations.ResetFromEveryState := by
  intro s rest hi
  exact ⟨_, step_reset hi, resetBlock_phase _, resetBlock_sxBuf _, resetBlock_result _, resetBlock_txQueue _,
    resetBlock_txCount _, resetBlock_txResult _, resetBlock_inputs _, resetBlock_sink _, resetBlock_params _⟩

/-- Settles O28: each step answers the same state, so the run goes on from it; by induction on the number of steps. -/
theorem waitingChangesNothing : Obligations.WaitingChangesNothing := by
  intro s hi k
  induction k with
  | zero => exact run_zero s
  | succ k ih => exact (run_next k (step_nil hi)).trans ih

end Sys2Proof.Machine
end
